-- ==== Sys2Proof/Word.lean ====
section
/-! DEFINITION. The bit-vector types of the machine (00_scope.md R3) and the register number. -/

namespace Sys2Proof

/-- A byte of memory (20_memory.md R26). -/
abbrev Byte := BitVec 8

/-- An instruction word, `ILEN` = 32 bits (30_encoding.md R44). -/
abbrev Word := BitVec 32

/-- An effective address, `EALEN` = 32 bits (20_memory.md R27), and the program counter (10_state.md R15). -/
abbrev Addr := BitVec 32

/-- The contents of a general or a floating-point register, `XLEN` = `FLEN` = 64 bits (10_state.md R10, R13). -/
abbrev Dword := BitVec 64

/-- A register number: the unsigned value of a 5-bit field, 0 to 31 (10_state.md R10, R13).
The `FS` field numbers floating-point registers, `RA` and `RB` number general registers (40_fp_store_double.md R71). -/
abbrev Reg := Fin 32

end Sys2Proof
end

