-- ==== Sys2Proof/Config.lean ====
section
/-! DEFINITION. The launch parameters of 00_scope.md R4, as plain data. The spec takes them as arguments of the step
relation; they stand in `State.params`, where the launch puts them and no instruction writes them (DESIGN CHOICE, safe,
notes/assumptions/4.md), so that every statement about every state ranges over every setting.

The fixed sizes of R3 are in the types of Sys2Proof/Word.lean. `NTHREADS` is fixed at its default 1 (notes/assumptions/17.md).
The spec leaves no value open, so there is no free value here. -/

namespace Sys2Proof

/-- `INVALID_FORM_POLICY` (30_encoding.md R55): what an update form with `RA = 0` does. -/
inductive InvalidFormPolicy where
  /-- The default: the step is `refuse(invalid_form_RA0)`. -/
  | refuse
  /-- The instruction executes by its ordinary rule with `r0` as base and destination. -/
  | asSnapshot
  deriving DecidableEq, Repr

/-- `XFORM_BIT31_POLICY` (30_encoding.md R54): what an X-form word with bit 31 = 1 is. -/
inductive Bit31Policy where
  /-- The default: the decoder does not accept the word and the step is `refuse(reserved_bit31)`. -/
  | refuse
  /-- The word executes as if the bit were 0. -/
  | ignore
  deriving DecidableEq, Repr

/-- The addresses from `base` up to, not including, `base + size`. -/
structure Region where
  base : Nat
  size : Nat
  deriving DecidableEq, Repr

/-- One rule of `AlignFault(EA)` (20_memory.md R32): it holds of the addresses of `region` whose remainder by `modulus` is
one of `residues`. A list of these can say any predicate on 32-bit addresses (`Laws.alignFault_represents`). -/
structure AlignRule where
  region   : Region
  modulus  : Nat
  residues : List Nat
  deriving DecidableEq, Repr

/-- The parameters of 00_scope.md R4 that one hardware thread can show. -/
structure LaunchParams where
  /-- `INVALID_FORM_POLICY` (R55). -/
  invalidFormPolicy : InvalidFormPolicy
  /-- `XFORM_BIT31_POLICY` (R54). -/
  bit31Policy : Bit31Policy
  /-- `ATOMIC_ALIGNED_DW` (20_memory.md R34). -/
  atomicAlignedDW : Bool
  /-- `RESERVATION_GRANULE` (20_memory.md R40) is 2 to this power. -/
  granuleLog2 : Nat
  /-- `Admitted(a)` (20_memory.md R36): the union of the regions. -/
  admitted : List Region
  /-- `AlignFault(EA)` (20_memory.md R32): the union of the rules. -/
  alignFault : List AlignRule
  /-- `ProgramText` (20_memory.md R42): the union of the regions. -/
  programText : List Region
  deriving DecidableEq, Repr

/-- R4's defaults, and for the parameters without one the conventions of 95_test_vectors.md (`Admitted` true everywhere,
granules of 8 bytes); no program is placed, so `ProgramText` is empty. DESIGN CHOICE, unsafe: notes/assumptions/2.md. -/
def LaunchParams.default : LaunchParams where
  invalidFormPolicy := .refuse
  bit31Policy := .refuse
  atomicAlignedDW := false
  granuleLog2 := 3
  admitted := [⟨0, 2 ^ 32⟩]
  alignFault := []
  programText := []

end Sys2Proof
end

