-- ==== Sys2Proof/Machine/State.lean ====
section
/-! DEFINITION. The state of the machine (10_state.md), how a step can stop (60_exceptions.md R72), and the launch state the
model calls reset. Plain data throughout. -/

namespace Sys2Proof.Machine

/-- The machine state register: the one bit the spec names (10_state.md R18, decision D16; notes/assumptions/20.md). -/
structure Msr where
  /-- MSR[FP], floating-point available. -/
  fp : Bool
  deriving DecidableEq, Repr

/-- The three bits of the fixed-point exception register the spec names (10_state.md R21). -/
structure Xer where
  ca : Bool
  ov : Bool
  so : Bool
  deriving DecidableEq, Repr

/-- A load reservation held by some hardware thread (10_state.md R23). The format is the model's: the spec gives none
(DESIGN CHOICE, notes/assumptions/16.md). -/
structure Reservation where
  /-- The number of the hardware thread that holds it. -/
  holder : Nat
  /-- An address in the reserved granule. -/
  addr : Addr
  deriving DecidableEq, Repr

/-- Data memory (20_memory.md R26): the bytes that hold a value, by address, in the canonical form `Memory.wf` of
Sys2Proof/Machine/Ops.lean. An address that is not listed holds no value (10_state.md R25), so no listed entry can equal
what an unlisted address reads as. -/
abbrev Memory := List Host.Cell

/-- The exceptions of 60_exceptions.md R72 (`raise E(info)`), each a terminal outcome that carries its recorded value (R79).
Precise: the instruction has done nothing (notes/assumptions/11.md). -/
inductive Fault where
  /-- Raised by all four instructions when MSR[FP] = 0; records the instruction's address (R73). Safe. -/
  | floatingPointUnavailable (pc : Addr)
  /-- Raised by all four when `AlignFault(EA)`; records the effective address (R74). Safe where the parameter is set; an
  unset parameter over cache-inhibited storage is unsafe (notes/assumptions/12.md). -/
  | alignment (ea : Addr)
  /-- Raised by all four when a stored byte is not admitted; records the effective address (R75). Safe: it stands for
  whatever the hardware does there (notes/assumptions/13.md). -/
  | memoryFault (ea : Addr)
  deriving DecidableEq, Repr

/-- The refusals of 60_exceptions.md R72 and R76: the spec gives the step no meaning. All are safe: nothing can be proved of
a run that reaches one. -/
inductive Refusal where
  /-- An instruction whose meaning is not written: `exec` answers it by name. Safe. -/
  | notModelled (mnemonic : String)
  /-- `stfdu`, `stfdux` with `RA = 0` under `INVALID_FORM_POLICY = refuse` (30_encoding.md R55). Safe. -/
  | invalidFormRA0
  /-- The fetch of an `stfdx` or `stfdux` word with bit 31 = 1 under `XFORM_BIT31_POLICY = refuse` (30_encoding.md R54).
  Safe. -/
  | reservedBit31
  /-- All four, when `EA > 0xFFFFFFF8` (20_memory.md R33). Safe. -/
  | storeWrapsAddressSpace
  /-- All four, when a stored byte lies in `ProgramText` (20_memory.md R42). Safe. -/
  | storeToProgramText
  /-- All four, when `pc = 0xFFFFFFFC` (10_state.md R17). Safe. -/
  | pcWrap
  /-- The fetch, when `pc` is not a multiple of 4 (20_memory.md R41). Safe. -/
  | misalignedFetch
  /-- The fetch of a word that is none of the four instructions (30_encoding.md R56). Safe. -/
  | notInScope
  /-- The fetch, when one of the four bytes holds no value (00_scope.md R9, 10_state.md R25; notes/assumptions/3.md).
  Safe. -/
  | unwrittenFetch
  deriving DecidableEq, Repr

/-- How a step stops: `raise E(info)` or `refuse(reason)` (00_scope.md R8). -/
inductive Stop where
  | raise (f : Fault)
  | refuse (r : Refusal)
  deriving DecidableEq, Repr

/-- The whole state (10_state.md, the record at its head, and R19 to R22 for the registers the spec names as untouched). -/
structure State where
  /-- General registers `r0` to `r31` (R10, R11). -/
  x      : Vector Dword 32
  /-- Floating-point registers `f0` to `f31`, as bit patterns (R13, R14). -/
  f      : Vector Dword 32
  /-- The address of the instruction being executed (R15). -/
  pc     : Addr
  /-- The machine state register (R18). -/
  msr    : Msr
  /-- Floating-point status and control register (R19). PRESUMED width, notes/assumptions/19.md. -/
  fpscr  : BitVec 32
  /-- Condition register (R20). PRESUMED width, notes/assumptions/19.md. -/
  cr     : BitVec 32
  /-- Fixed-point exception register (R21). -/
  xer    : Xer
  /-- Vector registers (R22). DEDUCED number, PRESUMED width, notes/assumptions/19.md. -/
  v      : Vector (BitVec 128) 32
  /-- The reservation table (R23). -/
  rsv    : List Reservation
  /-- Data memory (20_memory.md R26). -/
  mem    : Memory
  /-- The launch parameters (00_scope.md R4); no instruction writes them. -/
  params : LaunchParams
  deriving DecidableEq, Repr

/-- The launch state the model calls reset. The spec states no reset value for anything (10_state.md R25, R84): every value
here is the model's. The program counter, MSR[FP] and the address map follow the conventions of 95_test_vectors.md and the
launch premises of 70_reset_and_hazards.md R85 (DESIGN CHOICE, unsafe, notes/assumptions/2.md); the registers are zero
(DESIGN CHOICE, unsafe, notes/assumptions/1.md, and PRESUMED, notes/assumptions/19.md); no reservation is held (R25,
notes/assumptions/16.md); no byte of memory holds a value (notes/assumptions/3.md). -/
def State.reset : State where
  x := Vector.replicate 32 0#64
  f := Vector.replicate 32 0#64
  pc := 0x00000100#32
  msr := ⟨true⟩
  fpscr := 0#32
  cr := 0#32
  xer := ⟨false, false, false⟩
  v := Vector.replicate 32 0#128
  rsv := []
  mem := []
  params := .default

end Sys2Proof.Machine
end

