-- ==== Sys2Proof/Machine/Ops.lean ====
section
/-! DEFINITION. The named operations over memory, registers, reservations and launch parameters, the way a step stops, and
the shared step of the four stores (40_fp_store_double.md R62). -/

namespace Sys2Proof

/-! ### Launch parameters as predicates -/

/-- The region holds the address. -/
def Region.contains (r : Region) (a : Nat) : Bool := decide (r.base ≤ a) && decide (a < r.base + r.size)

/-- The rule holds of the address. -/
def AlignRule.applies (r : AlignRule) (a : Nat) : Bool := r.region.contains a && r.residues.contains (a % r.modulus)

/-- `Admitted(a)` (20_memory.md R36). -/
def LaunchParams.isAdmitted (p : LaunchParams) (a : Addr) : Bool := p.admitted.any (·.contains a.toNat)

/-- `AlignFault(EA)` (20_memory.md R32). -/
def LaunchParams.alignFaults (p : LaunchParams) (ea : Addr) : Bool := p.alignFault.any (·.applies ea.toNat)

/-- The address lies in `ProgramText` (20_memory.md R42). -/
def LaunchParams.inProgramText (p : LaunchParams) (a : Addr) : Bool := p.programText.any (·.contains a.toNat)

/-- The number of the reservation granule that holds the address (20_memory.md R40). -/
def LaunchParams.granuleOf (p : LaunchParams) (a : Addr) : Nat := a.toNat / 2 ^ p.granuleLog2

namespace Machine

/-! ### Memory -/

/-- The canonical form of memory: addresses strictly rising, none past the address space. -/
abbrev Memory.wf (m : Memory) : Prop := m.Pairwise (fun c d => c.1 < d.1) ∧ ∀ c ∈ m, c.1 < 2 ^ 32

/-- Read one byte; none where the byte holds no value (10_state.md R25). -/
def Memory.read : Memory → Addr → Option Byte
  | [], _ => none
  | (k, b) :: m, a => if k = a.toNat then some b else Memory.read m a

/-- Write one byte, keeping the canonical form. -/
def Memory.write : Memory → Addr → Byte → Memory
  | [], a, b => [(a.toNat, b)]
  | (k, c) :: m, a, b =>
    if a.toNat < k then (a.toNat, b) :: (k, c) :: m
    else if a.toNat = k then (k, b) :: m
    else (k, c) :: Memory.write m a b

/-- The address of byte `i` of an access at `a`. -/
def byteAddr (a : Addr) (i : Nat) : Addr := a + BitVec.ofNat 32 i

/-- Byte `i` of a stored doubleword, most significant first: `v[63 - 8*i : 56 - 8*i]` (20_memory.md R29). -/
def byteOfDword (v : Dword) (i : Nat) : Byte := v.extractLsb' (56 - 8 * i) 8

/-- Eight single-byte writes (20_memory.md R34, `ATOMIC_ALIGNED_DW = false`), in the order of the list of byte numbers.
R34 states no order; that none matters is an obligation. -/
def writeBytesInOrder (order : List Nat) (m : Memory) (ea : Addr) (v : Dword) : Memory :=
  order.foldl (fun m i => m.write (byteAddr ea i) (byteOfDword v i)) m

/-- One indivisible 8-byte write (20_memory.md R34, `ATOMIC_ALIGNED_DW = true`): the eight cells take the place of whatever
stood there. -/
def Memory.writeDword (m : Memory) (ea : Addr) (v : Dword) : Memory :=
  m.filter (fun c => decide (c.1 < ea.toNat))
    ++ (List.range 8).map (fun i => (ea.toNat + i, byteOfDword v i))
    ++ m.filter (fun c => decide (ea.toNat + 8 ≤ c.1))

/-- `MemWrite(EA, 8, v)` (20_memory.md R29, R34). -/
def memWrite (p : LaunchParams) (m : Memory) (ea : Addr) (v : Dword) : Memory :=
  if p.atomicAlignedDW && decide (ea.toNat % 8 = 0) then m.writeDword ea v
  else writeBytesInOrder (List.range 8) m ea v

/-- The first `n` bytes at `a` as a big-endian number; none where one of them holds no value. -/
def Memory.readBE (m : Memory) (a : Addr) : Nat → Option Nat
  | 0 => some 0
  | n + 1 =>
    match Memory.readBE m a n, m.read (byteAddr a n) with
    | some hi, some b => some (hi * 256 + b.toNat)
    | _, _ => none

/-- `MemRead(addr, n)`, big-endian (00_scope.md R8); none where a byte holds no value or the access passes the top of the
address space (DESIGN CHOICE, safe, notes/assumptions/25.md). -/
def memRead (m : Memory) (a : Addr) (n : Nat) : Option (BitVec (8 * n)) :=
  if a.toNat + n ≤ 2 ^ 32 then (m.readBE a n).map (BitVec.ofNat (8 * n)) else none

/-! ### Registers -/

/-- Read general register `r` (10_state.md R10, R11: none is hardwired). -/
def State.gpr (s : State) (r : Reg) : Dword := s.x.get r

/-- Write all 64 bits of general register `r` (10_state.md R12). -/
def State.setGpr (s : State) (r : Reg) (v : Dword) : State := { s with x := s.x.set r.val v r.isLt }

/-- Read floating-point register `r` as a bit pattern (10_state.md R14). -/
def State.fpr (s : State) (r : Reg) : Dword := s.f.get r

/-- `pc <- pc + 4` (10_state.md R16). -/
def State.advancePc (s : State) : State := { s with pc := s.pc + 4#32 }

/-! ### Stores and reservations on the state -/

/-- The granule of the reservation holds one of the `n` byte addresses at `ea` (20_memory.md R40). -/
def Reservation.overlaps (p : LaunchParams) (ea : Addr) (n : Nat) (r : Reservation) : Bool :=
  (List.range n).any (fun i => p.granuleOf (byteAddr ea i) == p.granuleOf r.addr)

/-- `ReservationKill(EA, n)` (20_memory.md R40): every reservation over one of the bytes is cleared, whoever holds it. -/
def State.killReservations (s : State) (ea : Addr) (n : Nat) : State :=
  { s with rsv := s.rsv.filter (fun r => !r.overlaps s.params ea n) }

/-- `MemWrite(EA, 8, v)` on the state. -/
def State.storeDword (s : State) (ea : Addr) (v : Dword) : State := { s with mem := memWrite s.params s.mem ea v }

/-- Line 12 of R62: an update form writes the zero-extended effective address to `RA` (40_fp_store_double.md R64). -/
def State.updateBase (s : State) (update : Option Reg) (ea : Addr) : State :=
  match update with
  | none => s
  | some ra => s.setGpr ra (ea.setWidth 64)

/-! ### Stopping -/

/-- Taking an exception (60_exceptions.md R79): a terminal outcome with the exception's name and recorded value. The spec
has no vector, no save register and no mode change, and no handler is entered; R80: there is no return. -/
def takeException (f : Fault) : Host.Outcome State Fault Refusal := .fault f

/-- The outcome of a stop: an exception is taken, `refuse(reason)` is a refusal (00_scope.md R9, 60_exceptions.md R76). -/
def Stop.outcome : Stop → Host.Outcome State Fault Refusal
  | .raise f => takeException f
  | .refuse r => .refused r

/-! ### The shared step of the four stores -/

/-- The last program-counter value, whose successor does not fit in 32 bits (10_state.md R17). -/
def lastPc : Addr := 0xFFFFFFFC#32

/-- The highest effective address of an 8-byte store (20_memory.md R33). -/
def lastStoreEA : Addr := 0xFFFFFFF8#32

/-- The form is invalid (30_encoding.md R55): an update form with `RA = 0`. -/
def isInvalidForm (update : Option Reg) : Bool := update == some 0

/-- Lines 1 and 3 to 9 of 40_fp_store_double.md R62, in their order (line 2 belongs to the decoder, R54): what stops a store
at `ea`, if something does. `update` is `RA` for an update form. -/
def storeStop (update : Option Reg) (ea : Addr) (s : State) : Option Stop :=
  if s.pc = lastPc then some (.refuse .pcWrap)
  else if isInvalidForm update && s.params.invalidFormPolicy == .refuse then some (.refuse .invalidFormRA0)
  else if !s.msr.fp then some (.raise (.floatingPointUnavailable s.pc))
  else if lastStoreEA < ea then some (.refuse .storeWrapsAddressSpace)
  else if (List.range 8).any (fun i => s.params.inProgramText (byteAddr ea i)) then some (.refuse .storeToProgramText)
  else if s.params.alignFaults ea then some (.raise (.alignment ea))
  else if !(List.range 8).all (fun i => s.params.isAdmitted (byteAddr ea i)) then some (.raise (.memoryFault ea))
  else none

/-- Lines 10 to 13 of R62, in their order: reservations, memory, base register, program counter. -/
def storeEffect (update : Option Reg) (fs : Reg) (ea : Addr) (s : State) : State :=
  (((s.killReservations ea 8).storeDword ea (s.fpr fs)).updateBase update ea).advancePc

/-- R62 for a store of floating-point register `fs` at `ea`. -/
def storeDouble (update : Option Reg) (fs : Reg) (ea : Addr) (s : State) : Host.Outcome State Fault Refusal :=
  match storeStop update ea s with
  | some stop => stop.outcome
  | none => .next (storeEffect update fs ea s)

/-! ### Placing an instruction -/

/-- The four bytes of an instruction word in memory at `a`, big-endian (20_memory.md R41). -/
def placeWord (m : Memory) (a : Addr) (w : Word) : Memory :=
  (List.range 4).foldl (fun m i => m.write (byteAddr a i) (w.extractLsb' (24 - 8 * i) 8)) m

end Machine

end Sys2Proof
end

