-- ==== Sys2Proof/Syntax.lean ====
section
/-! DEFINITION. The four instructions in scope (00_scope.md R2), one constructor per row of spec/opcode_table.json.
Register fields are numbers 0 to 31; `d` is the raw 16-bit field, whose sign extension belongs to the address
computation (30_encoding.md R48). -/

namespace Sys2Proof

/-- An instruction as decoded (30_encoding.md R50 to R53). The invalid forms of R55 are terms of this type: they decode,
and what they do is `INVALID_FORM_POLICY`'s to say. -/
inductive Instr where
  /-- `stfd FS, d(RA0)`: Store Floating-Point Double (R50, R65). -/
  | stfd (fs ra : Reg) (d : BitVec 16)
  /-- `stfdu FS, d(RA)`: Store Floating-Point Double with Update (R51, R66). -/
  | stfdu (fs ra : Reg) (d : BitVec 16)
  /-- `stfdx FS, RA0, RB`: Store Floating-Point Double Indexed (R52, R67). -/
  | stfdx (fs ra rb : Reg)
  /-- `stfdux FS, RA, RB`: Store Floating-Point Double with Update Indexed (R53, R68). -/
  | stfdux (fs ra rb : Reg)
  deriving DecidableEq, Repr

end Sys2Proof
end

