-- ==== Sys2Proof/Machine/Operands.lean ====
section
/-! DEFINITION. Every operand form of the four instructions and their effective addresses (30_encoding.md R48, R49;
20_memory.md R27; 40_fp_store_double.md R65 to R69). -/

namespace Sys2Proof.Machine

/-- `EXTS(d)` = `sext_64(d)`: the displacement, signed, counting bytes (30_encoding.md R48). -/
def extsD (d : BitVec 16) : Dword := d.signExtend 64

/-- The `RA0` base operand: the literal 0 when the field is 0, and then `r0` is not read (30_encoding.md R49). -/
def operandRA0 (s : State) (ra : Reg) : Dword := if ra = 0 then 0#64 else s.gpr ra

/-- The plain base operand of the update forms (30_encoding.md R49). -/
def operandRA (s : State) (ra : Reg) : Dword := s.gpr ra

/-- The index operand of the X forms, always the plain form: field 0 reads `r0` (30_encoding.md R49). -/
def operandRB (s : State) (rb : Reg) : Dword := s.gpr rb

/-- `EA = (base64 +64 offset64)[31:0]` (20_memory.md R27); no carry, no overflow, no flag (40_fp_store_double.md R69). -/
def effectiveAddress (base offset : Dword) : Addr := (base + offset).setWidth 32

/-- The effective address of `stfd` (R65). -/
def eaStfd (s : State) (ra : Reg) (d : BitVec 16) : Addr := effectiveAddress (operandRA0 s ra) (extsD d)

/-- The effective address of `stfdu` (R66). -/
def eaStfdu (s : State) (ra : Reg) (d : BitVec 16) : Addr := effectiveAddress (operandRA s ra) (extsD d)

/-- The effective address of `stfdx` (R67). -/
def eaStfdx (s : State) (ra rb : Reg) : Addr := effectiveAddress (operandRA0 s ra) (operandRB s rb)

/-- The effective address of `stfdux` (R68). -/
def eaStfdux (s : State) (ra rb : Reg) : Addr := effectiveAddress (operandRA s ra) (operandRB s rb)

/-- The effective address an instruction stores to. -/
def storeEA (i : Instr) (s : State) : Addr :=
  match i with
  | .stfd _ ra d => eaStfd s ra d
  | .stfdu _ ra d => eaStfdu s ra d
  | .stfdx _ ra rb => eaStfdx s ra rb
  | .stfdux _ ra rb => eaStfdux s ra rb

/-- The number of the floating-point register an instruction stores. -/
def sourceFS : Instr → Reg
  | .stfd fs _ _ | .stfdu fs _ _ | .stfdx fs _ _ | .stfdux fs _ _ => fs

/-- The general register an instruction writes, if it is an update form (10_state.md R12). -/
def updatedRA : Instr → Option Reg
  | .stfd _ _ _ | .stfdx _ _ _ => none
  | .stfdu _ ra _ | .stfdux _ ra _ => some ra

end Sys2Proof.Machine
end

