-- ==== Sys2Proof/Machine/FpStore.lean ====
section
/-! DEFINITION. The meanings of the four stores (40_fp_store_double.md R65 to R68), each within the order and the checks of
R62. -/

namespace Sys2Proof.Machine

/-- `stfd FS, d(RA0)` (R65). -/
def execStfd (fs ra : Reg) (d : BitVec 16) (s : State) : Host.Outcome State Fault Refusal :=
  storeDouble none fs (eaStfd s ra d) s

/-- `stfdu FS, d(RA)` (R66). -/
def execStfdu (fs ra : Reg) (d : BitVec 16) (s : State) : Host.Outcome State Fault Refusal :=
  storeDouble (some ra) fs (eaStfdu s ra d) s

/-- `stfdx FS, RA0, RB` (R67). -/
def execStfdx (fs ra rb : Reg) (s : State) : Host.Outcome State Fault Refusal :=
  storeDouble none fs (eaStfdx s ra rb) s

/-- `stfdux FS, RA, RB` (R68). -/
def execStfdux (fs ra rb : Reg) (s : State) : Host.Outcome State Fault Refusal :=
  storeDouble (some ra) fs (eaStfdux s ra rb) s

end Sys2Proof.Machine
end

