-- ==== Sys2Proof/Machine/Dispatch.lean ====
section
/-! DEFINITION. One arm for each instruction. -/

namespace Sys2Proof.Machine

def exec (i : Instr) (s : State) : Host.Outcome State Fault Refusal :=
  match i with
  | .stfd fs ra d => Sys2Proof.Machine.execStfd fs ra d s
  | .stfdu fs ra d => Sys2Proof.Machine.execStfdu fs ra d s
  | .stfdx fs ra rb => Sys2Proof.Machine.execStfdx fs ra rb s
  | .stfdux fs ra rb => Sys2Proof.Machine.execStfdux fs ra rb s

end Sys2Proof.Machine
end

