-- ==== Sys2Proof/WellFormed.lean ====
section
/-! DEFINITION. Which terms of `Instr` are valid forms. Every field value is in its range by its type; the one check left is
the invalid form of 30_encoding.md R55. -/

namespace Sys2Proof

/-- 30_encoding.md R50 to R53, R55: an update form needs `RA` other than 0; the other two forms are valid for every field
value. -/
def Instr.wellFormed : Instr → Bool
  | .stfd _ _ _   => true
  | .stfdu _ ra _ => ra != 0
  | .stfdx _ _ _  => true
  | .stfdux _ ra _ => ra != 0

end Sys2Proof
end

