-- ==== Sys2Proof/Decode.lean ====
section
/-! DEFINITION. The decoder, total on any four bytes (30_encoding.md R44 to R56), and the encoder (R59). -/

namespace Sys2Proof

/-! ### Fields (30_encoding.md R45 to R47) -/

/-- `FS`, `w{6–10}` = `w[25:21]`. -/
def fieldFS (w : Word) : Reg := (w.extractLsb' 21 5).toFin

/-- `RA`, `w{11–15}` = `w[20:16]`. -/
def fieldRA (w : Word) : Reg := (w.extractLsb' 16 5).toFin

/-- `RB`, `w{16–20}` = `w[15:11]`, X form only. -/
def fieldRB (w : Word) : Reg := (w.extractLsb' 11 5).toFin

/-- `d`, `w{16–31}` = `w[15:0]`, D form only, the raw 16 bits. -/
def fieldD (w : Word) : BitVec 16 := w.extractLsb' 0 16

/-- X-form bit 31, `w{31}` = `w[0]` (R54). -/
def fieldBit31 (w : Word) : Bool := w.getLsbD 0

/-! ### The opcode map (30_encoding.md section 3) -/

/-- The mnemonics of the map, in the table's order. -/
inductive Mnemonic where
  | stfd | stfdu | stfdx | stfdux
  deriving DecidableEq, Repr

/-- The X-form mnemonics (R46). -/
def Mnemonic.isX : Mnemonic → Bool
  | .stfd | .stfdu => false
  | .stfdx | .stfdux => true

/-- A row of the opcode map: a word `w` is the instruction when `w & mask = match`. -/
structure OpcodeRow where
  mnemonic : Mnemonic
  pattern  : Word
  mask     : Word
  deriving DecidableEq, Repr

/-- The four rows of the map (R50 to R53). -/
def opcodeMap : List OpcodeRow :=
  [⟨.stfd,   0xD8000000#32, 0xFC000000#32⟩,
   ⟨.stfdu,  0xDC000000#32, 0xFC000000#32⟩,
   ⟨.stfdx,  0x7C0005AE#32, 0xFC0007FF#32⟩,
   ⟨.stfdux, 0x7C0005EE#32, 0xFC0007FF#32⟩]

/-- Whether `w` is the instruction of the row. -/
def OpcodeRow.accepts (r : OpcodeRow) (w : Word) : Bool := w &&& r.mask == r.pattern

/-- The row of the map that accepts `w`, if one does. -/
def lookup (w : Word) : Option Mnemonic := (opcodeMap.find? (·.accepts w)).map (·.mnemonic)

/-- The instruction a mnemonic and the fields of `w` name. -/
def ofFields (w : Word) : Mnemonic → Instr
  | .stfd   => .stfd (fieldFS w) (fieldRA w) (fieldD w)
  | .stfdu  => .stfdu (fieldFS w) (fieldRA w) (fieldD w)
  | .stfdx  => .stfdx (fieldFS w) (fieldRA w) (fieldRB w)
  | .stfdux => .stfdux (fieldFS w) (fieldRA w) (fieldRB w)

/-! ### The decoder -/

/-- What a word is: one of the four instructions, or rejected under one of two names. -/
inductive Decoded where
  | instr (i : Instr)
  /-- An X-form word of this spec with bit 31 = 1, under `XFORM_BIT31_POLICY = refuse` (R54). -/
  | reservedBit31
  /-- Any other word (R56). -/
  | notInScope
  deriving DecidableEq, Repr

/-- The X-form instruction of this spec that `w` would be if its bit 31, which is 1, were 0 (R54). -/
def reservedX (w : Word) : Option Mnemonic :=
  if fieldBit31 w then (lookup (w ^^^ 1#32)).filter (·.isX) else none

/-- 30_encoding.md R50 to R56. A word that a row of the map accepts is that instruction, the invalid forms of R55 included.
An X-form word with bit 31 = 1 goes by `XFORM_BIT31_POLICY`. Every other word is not in scope. -/
def decodeWord (p : Bit31Policy) (w : Word) : Decoded :=
  match lookup w with
  | some m => .instr (ofFields w m)
  | none =>
    match reservedX w, p with
    | none, _ => .notInScope
    | some _, .refuse => .reservedBit31
    | some m, .ignore => .instr (ofFields w m)

/-- The word that four bytes in ascending address order hold under the big-endian fetch of 20_memory.md R41. -/
def wordOfBytes (b0 b1 b2 b3 : Byte) : Word := b0 ++ b1 ++ b2 ++ b3

/-- Byte `i` (0 to 3, in ascending address order) of a stored instruction word. -/
def byteOfWord (w : Word) (i : Nat) : Byte := w.extractLsb' (24 - 8 * i) 8

/-- The decoder on bytes as they stand in memory. -/
def decodeBytes (p : Bit31Policy) (b0 b1 b2 b3 : Byte) : Decoded := decodeWord p (wordOfBytes b0 b1 b2 b3)

/-! ### The encoder -/

/-- A register number as its 5-bit field. -/
def regField (r : Reg) : BitVec 5 := BitVec.ofFin r

/-- The D form: `OPCD ++ FS ++ RA ++ d` (30_encoding.md R45). -/
def encodeD (opcd : BitVec 6) (fs ra : Reg) (d : BitVec 16) : Word := opcd ++ regField fs ++ regField ra ++ d

/-- The X form: `OPCD ++ FS ++ RA ++ RB ++ XO ++ bit 31`, with bit 31 = 0 (30_encoding.md R46, R54). -/
def encodeX (opcd : BitVec 6) (fs ra rb : Reg) (xo : BitVec 10) : Word :=
  opcd ++ regField fs ++ regField ra ++ regField rb ++ xo ++ 0#1

/-- The word of an instruction (30_encoding.md section 3, R59). -/
def encode : Instr → Word
  | .stfd fs ra d   => encodeD 54#6 fs ra d
  | .stfdu fs ra d  => encodeD 55#6 fs ra d
  | .stfdx fs ra rb  => encodeX 31#6 fs ra rb 727#10
  | .stfdux fs ra rb => encodeX 31#6 fs ra rb 759#10

/-! ### The host's question -/

/-- The instruction the decoder reads from the word whose low `nbits` bits are those of `w`, laid out as the hardware stores
it. The policy is R4's default. -/
def decodeTableWord (nbits w : Nat) : Option Instr :=
  let word : Word := BitVec.ofNat 32 (w % 2 ^ nbits)
  match decodeBytes .refuse (byteOfWord word 0) (byteOfWord word 1) (byteOfWord word 2) (byteOfWord word 3) with
  | .instr i => some i
  | .reservedBit31 => none
  | .notInScope => none

end Sys2Proof
end

