-- ==== Sys2Proof/Machine/Fetch.lean ====
section
/-! DEFINITION. Fetching and decoding the instruction at the program counter (20_memory.md R41, 30_encoding.md R54, R56). -/

namespace Sys2Proof.Machine

/-- The word at `pc`, big-endian (R41); none where one of its bytes holds no value. -/
def fetchWord (s : State) : Option Word :=
  match s.mem.read (byteAddr s.pc 0), s.mem.read (byteAddr s.pc 1), s.mem.read (byteAddr s.pc 2),
      s.mem.read (byteAddr s.pc 3) with
  | some b0, some b1, some b2, some b3 => some (wordOfBytes b0 b1 b2 b3)
  | _, _, _, _ => none

/-- The instruction at `pc`, or what stops the step before it executes. For a reserved word line 1 of
40_fp_store_double.md R62 (`pc_wrap`) still comes before line 2 (`reserved_bit31`); a word that is none of the four
instructions is refused as such wherever it stands, since R62 speaks only of the four (DEDUCED, safe,
notes/assumptions/23.md). -/
def fetchInstr (s : State) : Except Stop Instr :=
  if s.pc.toNat % 4 ≠ 0 then .error (.refuse .misalignedFetch)
  else
    match fetchWord s with
    | none => .error (.refuse .unwrittenFetch)
    | some w =>
      match decodeWord s.params.bit31Policy w with
      | .instr i => .ok i
      | .reservedBit31 => .error (.refuse (if s.pc = lastPc then .pcWrap else .reservedBit31))
      | .notInScope => .error (.refuse .notInScope)

/-- Loading one instruction at `pc` from outside the machine: its four bytes, and `ProgramText` takes them in, being "the set
of byte addresses holding the program" (00_scope.md R4, 20_memory.md R42). -/
def loadWord (s : State) (w : Word) : State :=
  { s with
    mem := placeWord s.mem s.pc w
    params := { s.params with programText := ⟨s.pc.toNat, 4⟩ :: s.params.programText } }

end Sys2Proof.Machine
end

