-- ==== Sys2Proof/Machine/Step.lean ====
section
/-! DEFINITION. One step of the machine (00_scope.md R9) and the host's way to place an instruction. -/

namespace Sys2Proof.Machine

/-- Fetch, decode, execute: three outcomes (00_scope.md R9). -/
def step (s : State) : Host.Outcome State Fault Refusal :=
  match fetchInstr s with
  | .ok i => exec i s
  | .error stop => stop.outcome

/-- The state with the instruction whose low `nbits` bits are those of `w` loaded at the program counter
(notes/assumptions/2.md, notes/assumptions/15.md). -/
def State.withFetchWord (s : State) (nbits w : Nat) : State := loadWord s (BitVec.ofNat 32 (w % 2 ^ nbits))

end Sys2Proof.Machine
end

