-- ==== Sys2Proof/Machine/Assembly.lean ====
section
/-! DEFINITION. Assembler syntax (30_encoding.md R58 to R60): the four syntax lines, from a line to the instruction (R59) and
back. There is no pseudo-instruction and no alias (R60). -/

namespace Sys2Proof.Machine

/-- A register operand as R58 spells it. -/
inductive AsmReg where
  /-- `f0` to `f31`. -/
  | fpr (n : Reg)
  /-- `r0` to `r31`. -/
  | gpr (n : Reg)
  /-- The bare digit `0`: the `RA0` operand with field value 0, where no register is read. -/
  | zero
  deriving DecidableEq, Repr

/-- An operand: a register, or a displacement with the base register in parentheses. -/
inductive AsmOperand where
  | reg (r : AsmReg)
  | disp (d : Int) (base : AsmReg)
  deriving DecidableEq, Repr

/-- A line of assembler text: the mnemonic, then the operands separated by commas. -/
structure AsmLine where
  mnemonic : Mnemonic
  operands : List AsmOperand
  deriving DecidableEq, Repr

/-- The `RA` field of an `[RA0]` operand (R58, R59). -/
def ra0Field : AsmReg → Option Reg
  | .gpr n => some n
  | .zero => some 0
  | .fpr _ => none

/-- The register field of an `[RA]` or `[RB]` operand. -/
def gprField : AsmReg → Option Reg
  | .gpr n => some n
  | .zero => none
  | .fpr _ => none

/-- The `d` field of a displacement: its low 16 bits; one outside -32768 to 32767 cannot be encoded (R59). -/
def dispField (d : Int) : Option (BitVec 16) :=
  if -32768 ≤ d ∧ d ≤ 32767 then some (BitVec.ofInt 16 d) else none

/-- From assembly to the instruction (R58, R59); none where the operands are not those of the mnemonic. -/
def assemble (l : AsmLine) : Option Instr :=
  match l.mnemonic, l.operands with
  | .stfd, [.reg (.fpr fs), .disp d base] =>
    match ra0Field base, dispField d with
    | some ra, some df => some (.stfd fs ra df)
    | _, _ => none
  | .stfdu, [.reg (.fpr fs), .disp d base] =>
    match gprField base, dispField d with
    | some ra, some df => some (.stfdu fs ra df)
    | _, _ => none
  | .stfdx, [.reg (.fpr fs), .reg a, .reg b] =>
    match ra0Field a, gprField b with
    | some ra, some rb => some (.stfdx fs ra rb)
    | _, _ => none
  | .stfdux, [.reg (.fpr fs), .reg a, .reg b] =>
    match gprField a, gprField b with
    | some ra, some rb => some (.stfdux fs ra rb)
    | _, _ => none
  | _, _ => none

/-- The `[RA0]` operand of a field value, 0 written as the bare digit (R58). -/
def ra0Operand (ra : Reg) : AsmReg := if ra = 0 then .zero else .gpr ra

/-- The line of an instruction (R58). -/
def disassemble : Instr → AsmLine
  | .stfd fs ra d => ⟨.stfd, [.reg (.fpr fs), .disp d.toInt (ra0Operand ra)]⟩
  | .stfdu fs ra d => ⟨.stfdu, [.reg (.fpr fs), .disp d.toInt (.gpr ra)]⟩
  | .stfdx fs ra rb => ⟨.stfdx, [.reg (.fpr fs), .reg (ra0Operand ra), .reg (.gpr rb)]⟩
  | .stfdux fs ra rb => ⟨.stfdux, [.reg (.fpr fs), .reg (.gpr ra), .reg (.gpr rb)]⟩

/-- The spelling of a mnemonic. -/
def mnemonicText : Mnemonic → String
  | .stfd => "stfd"
  | .stfdu => "stfdu"
  | .stfdx => "stfdx"
  | .stfdux => "stfdux"

/-- The spelling of a register (R58). -/
def regText : AsmReg → String
  | .fpr n => "f" ++ toString n.val
  | .gpr n => "r" ++ toString n.val
  | .zero => "0"

/-- The spelling of an operand (R58). -/
def operandText : AsmOperand → String
  | .reg r => regText r
  | .disp d base => toString d ++ "(" ++ regText base ++ ")"

/-- The text of a line (R58). -/
def lineText (l : AsmLine) : String :=
  mnemonicText l.mnemonic ++ " " ++ ", ".intercalate (l.operands.map operandText)

end Sys2Proof.Machine
end

