-- ==== Sys2Proof/Machine/Flags.lean ====
section
/-! DEFINITION. The flag rule of this spec: there is no flag computation at all. None of the four instructions reads or
writes MSR, FPSCR, CR or XER (10_state.md R18 to R21, 40_fp_store_double.md R63, R69), so what is left to say of the status
registers is the relation that all of them are kept. -/

namespace Sys2Proof.Machine

/-- `t` has the status registers of `s`: MSR, FPSCR, CR and XER (CA, OV, SO). -/
abbrev StatusKept (s t : State) : Prop := t.msr = s.msr ∧ t.fpscr = s.fpscr ∧ t.cr = s.cr ∧ t.xer = s.xer

end Sys2Proof.Machine
end

