-- ==== Sys2Proof/Safety.lean ====
section
/-! DEFINITION. What the statements speak in: when a store is allowed, when an instruction completes, what stays true from
step to step, and which runs are safe. -/

namespace Sys2Proof.Machine

/-- The address side of 40_fp_store_double.md R62: none of lines 6 to 9 stops a store at `ea`. -/
abbrev StoreAllowed (p : LaunchParams) (ea : Addr) : Prop :=
  ea.toNat ≤ 0xFFFFFFF8 ∧ (∀ i < 8, p.inProgramText (ea + BitVec.ofNat 32 i) = false) ∧ p.alignFaults ea = false ∧
    ∀ i < 8, p.isAdmitted (ea + BitVec.ofNat 32 i) = true

/-- The form may execute: it is valid, or `INVALID_FORM_POLICY = as_snapshot` (30_encoding.md R55). -/
abbrev FormAllowed (p : LaunchParams) (i : Instr) : Prop :=
  i.wellFormed = true ∨ p.invalidFormPolicy = .asSnapshot

/-- The conditions of 40_fp_store_double.md R62 and 70_reset_and_hazards.md R85, for the next instruction: the successor of
`pc` fits, the form may execute, MSR[FP] = 1 and the store is allowed at the instruction's effective address. -/
abbrev Completes (i : Instr) (s : State) : Prop :=
  s.pc ≠ 0xFFFFFFFC#32 ∧ FormAllowed s.params i ∧ s.msr.fp = true ∧ StoreAllowed s.params (storeEA i s)

/-- The invariant of every step: memory keeps its canonical form (notes/assumptions/3.md), `pc` is a multiple of 4
(10_state.md R17, 20_memory.md R41), and no reservation is listed twice (notes/assumptions/16.md). -/
abbrev Inv (s : State) : Prop := Memory.wf s.mem ∧ s.pc.toNat % 4 = 0 ∧ s.rsv.Nodup

/-- A safe run of `k` steps from `s`: none of them faults or is refused. -/
def SafeRun (k : Nat) (s : State) : Prop := ∃ t, core.run k s = .next t

end Sys2Proof.Machine
end

