-- ==== Sys2Proof/Certificates/Slice0/Obligations.lean ====
section
/-! DEFINITION. The statements for the provers. -/

open Sys2Proof Sys2Proof.Machine

/-! ### Encoding -/

/-- Decoding an encoded instruction gives it back, for every instruction with every operand value, under both settings of
`XFORM_BIT31_POLICY`; the invalid forms decode too (30_encoding.md R50 to R55). -/
def Obligations.DecodeOfEncodeIsTheInstruction : Prop :=
  ∀ (p : Bit31Policy) (i : Instr), decodeWord p (encode i) = .instr i

/-- Under the default policy a word that decodes to an instruction is that instruction's one encoding: no bit of a word is
dropped (30_encoding.md R45, R46, R50 to R54). -/
def Obligations.EachInstructionHasOneWord : Prop :=
  ∀ (w : Word) (i : Instr), decodeWord .refuse w = .instr i ↔ w = encode i

/-- 30_encoding.md R50 to R53: which words decode as which instruction and which field values are valid. The fields are
written by R47's shifts and masks, which the spec derives from the tables of R45 and R46; `d` is the raw field. -/
def Obligations.DecodingReadsEveryField : Prop :=
  (∀ (p : Bit31Policy) (w : Word) (fs ra : Reg) (d : BitVec 16),
    decodeWord p w = .instr (.stfd fs ra d) ↔
      w &&& 0xFC000000#32 = 0xD8000000#32 ∧ fs.val = (w.toNat >>> 21) &&& 0x1F ∧ ra.val = (w.toNat >>> 16) &&& 0x1F ∧
        d.toNat = w.toNat &&& 0xFFFF) ∧
  (∀ (p : Bit31Policy) (w : Word) (fs ra : Reg) (d : BitVec 16),
    decodeWord p w = .instr (.stfdu fs ra d) ↔
      w &&& 0xFC000000#32 = 0xDC000000#32 ∧ fs.val = (w.toNat >>> 21) &&& 0x1F ∧ ra.val = (w.toNat >>> 16) &&& 0x1F ∧
        d.toNat = w.toNat &&& 0xFFFF) ∧
  (∀ (w : Word) (fs ra rb : Reg),
    decodeWord .refuse w = .instr (.stfdx fs ra rb) ↔
      (w.toNat >>> 26) &&& 0x3F = 31 ∧ (w.toNat >>> 1) &&& 0x3FF = 727 ∧ w.toNat &&& 0x1 = 0 ∧
        fs.val = (w.toNat >>> 21) &&& 0x1F ∧ ra.val = (w.toNat >>> 16) &&& 0x1F ∧ rb.val = (w.toNat >>> 11) &&& 0x1F) ∧
  (∀ (w : Word) (fs ra rb : Reg),
    decodeWord .refuse w = .instr (.stfdux fs ra rb) ↔
      (w.toNat >>> 26) &&& 0x3F = 31 ∧ (w.toNat >>> 1) &&& 0x3FF = 759 ∧ w.toNat &&& 0x1 = 0 ∧
        fs.val = (w.toNat >>> 21) &&& 0x1F ∧ ra.val = (w.toNat >>> 16) &&& 0x1F ∧ rb.val = (w.toNat >>> 11) &&& 0x1F) ∧
  (∀ (w : Word), (w.toNat >>> 26) &&& 0x3F = 54 ↔ w &&& 0xFC000000#32 = 0xD8000000#32) ∧
  (∀ (w : Word), (w.toNat >>> 26) &&& 0x3F = 55 ↔ w &&& 0xFC000000#32 = 0xDC000000#32) ∧
  (∀ (w : Word), ((w.toNat >>> 26) &&& 0x3F = 31 ∧ (w.toNat >>> 1) &&& 0x3FF = 727 ∧ w.toNat &&& 0x1 = 0) ↔
    w &&& 0xFC0007FF#32 = 0x7C0005AE#32) ∧
  (∀ (w : Word), ((w.toNat >>> 26) &&& 0x3F = 31 ∧ (w.toNat >>> 1) &&& 0x3FF = 759 ∧ w.toNat &&& 0x1 = 0) ↔
    w &&& 0xFC0007FF#32 = 0x7C0005EE#32) ∧
  (∀ (fs ra : Reg) (d : BitVec 16), (Instr.stfd fs ra d).wellFormed = true ∧
    ((Instr.stfdu fs ra d).wellFormed = true ↔ ra ≠ 0)) ∧
  (∀ (fs ra rb : Reg), (Instr.stfdx fs ra rb).wellFormed = true ∧
    ((Instr.stfdux fs ra rb).wellFormed = true ↔ ra ≠ 0))

/-- 30_encoding.md section 4 (R54, the spec's own decision D3, notes/assumptions/9.md), both settings of
`XFORM_BIT31_POLICY`: under `refuse` the words of the two X forms with bit 31 = 1 decode as neither and the step is
`refuse(reserved_bit31)` (at the last program counter line 1 of R62 comes first, notes/assumptions/23.md); under `ignore` the
mask is `0xFC0007FE` and the step is that of the word with the bit 0; CR is written in neither. -/
def Obligations.Bit31IsRefusedOrIgnored : Prop :=
  (∀ (w : Word), w &&& 0xFC0007FF#32 = 0x7C0005AF#32 ∨ w &&& 0xFC0007FF#32 = 0x7C0005EF#32 →
    (decodeWord .refuse w = .reservedBit31) ∧
    (∀ (s : State), s.pc.toNat % 4 = 0 → fetchWord s = some w →
      (s.params.bit31Policy = .refuse → s.pc ≠ 0xFFFFFFFC#32 → step s = .refused .reservedBit31) ∧
      (s.params.bit31Policy = .ignore →
        ∃ i, decodeWord .refuse (w - 1#32) = .instr i ∧ decodeWord .ignore w = .instr i ∧ step s = exec i s ∧
          ∀ t, step s = .next t → t.cr = s.cr))) ∧
  (∀ (w : Word), (∃ fs ra rb, decodeWord .ignore w = .instr (.stfdx fs ra rb)) ↔
    w &&& 0xFC0007FE#32 = 0x7C0005AE#32) ∧
  (∀ (w : Word), (∃ fs ra rb, decodeWord .ignore w = .instr (.stfdux fs ra rb)) ↔
    w &&& 0xFC0007FE#32 = 0x7C0005EE#32)

/-- 30_encoding.md section 4 (R56, the spec's own decision D22): the decoder answers "not in scope" for exactly the words that
are none of the four after R54, and a step on one is refused by that name. -/
def Obligations.EveryOtherWordIsNotInScope : Prop :=
  (∀ (p : Bit31Policy) (w : Word), decodeWord p w = .notInScope ↔
    w &&& 0xFC000000#32 ≠ 0xD8000000#32 ∧ w &&& 0xFC000000#32 ≠ 0xDC000000#32 ∧
      w &&& 0xFC0007FE#32 ≠ 0x7C0005AE#32 ∧ w &&& 0xFC0007FE#32 ≠ 0x7C0005EE#32) ∧
  (∀ (s : State) (w : Word), s.pc.toNat % 4 = 0 → fetchWord s = some w →
    decodeWord s.params.bit31Policy w = .notInScope → step s = .refused .notInScope)

/-- Words written out from the encodings decode to the instructions they stand for (95_test_vectors.md K1, K7, K11, K15, and
the refused neighbours K18, K20, K22). -/
def Obligations.WrittenOutWordsDecode : Prop :=
  decodeWord .refuse 0xD8230008#32 = .instr (.stfd 1 3 8#16) ∧
  decodeWord .refuse 0xDC21FFF8#32 = .instr (.stfdu 1 1 0xFFF8#16) ∧
  decodeWord .refuse 0x7C6325AE#32 = .instr (.stfdx 3 3 4) ∧
  decodeWord .refuse 0x7C8535EE#32 = .instr (.stfdux 4 5 6) ∧
  decodeWord .refuse 0x7C6325AF#32 = .reservedBit31 ∧
  decodeWord .refuse 0x7C6325AC#32 = .notInScope ∧
  decodeWord .refuse 0xD4230008#32 = .notInScope

/-- 30_encoding.md section 5 (R59, which the spec derives from R45, R46 and R48; the spelling is decision D24,
notes/assumptions/24.md): a displacement outside -32768 to 32767 cannot be encoded; every line that can be has the word of
R59's formula, with `d_field = d mod 2^16`; R59's four worked words. -/
def Obligations.AssemblyEncodesByTheFormula : Prop :=
  (∀ (fs ra : Reg) (d : Int), ¬ (-32768 ≤ d ∧ d ≤ 32767) →
    assemble ⟨.stfd, [.reg (.fpr fs), .disp d (.gpr ra)]⟩ = none ∧
    assemble ⟨.stfd, [.reg (.fpr fs), .disp d .zero]⟩ = none ∧
    assemble ⟨.stfdu, [.reg (.fpr fs), .disp d (.gpr ra)]⟩ = none) ∧
  (∀ (fs ra : Reg) (d : Int), -32768 ≤ d ∧ d ≤ 32767 →
    (assemble ⟨.stfd, [.reg (.fpr fs), .disp d (.gpr ra)]⟩).map (fun i => (encode i).toNat) =
      some ((54 <<< 26) ||| (fs.val <<< 21) ||| (ra.val <<< 16) ||| (d % 65536).toNat) ∧
    (assemble ⟨.stfd, [.reg (.fpr fs), .disp d .zero]⟩).map (fun i => (encode i).toNat) =
      some ((54 <<< 26) ||| (fs.val <<< 21) ||| (d % 65536).toNat) ∧
    (assemble ⟨.stfdu, [.reg (.fpr fs), .disp d (.gpr ra)]⟩).map (fun i => (encode i).toNat) =
      some ((55 <<< 26) ||| (fs.val <<< 21) ||| (ra.val <<< 16) ||| (d % 65536).toNat)) ∧
  (∀ (fs ra rb : Reg),
    (assemble ⟨.stfdx, [.reg (.fpr fs), .reg (.gpr ra), .reg (.gpr rb)]⟩).map (fun i => (encode i).toNat) =
      some ((31 <<< 26) ||| (fs.val <<< 21) ||| (ra.val <<< 16) ||| (rb.val <<< 11) ||| (727 <<< 1)) ∧
    (assemble ⟨.stfdx, [.reg (.fpr fs), .reg .zero, .reg (.gpr rb)]⟩).map (fun i => (encode i).toNat) =
      some ((31 <<< 26) ||| (fs.val <<< 21) ||| (rb.val <<< 11) ||| (727 <<< 1)) ∧
    (assemble ⟨.stfdux, [.reg (.fpr fs), .reg (.gpr ra), .reg (.gpr rb)]⟩).map (fun i => (encode i).toNat) =
      some ((31 <<< 26) ||| (fs.val <<< 21) ||| (ra.val <<< 16) ||| (rb.val <<< 11) ||| (759 <<< 1))) ∧
  (assemble ⟨.stfd, [.reg (.fpr 1), .disp 8 (.gpr 3)]⟩).map encode = some 0xD8230008#32 ∧
  (assemble ⟨.stfdu, [.reg (.fpr 1), .disp (-8) (.gpr 1)]⟩).map encode = some 0xDC21FFF8#32 ∧
  (assemble ⟨.stfdx, [.reg (.fpr 3), .reg (.gpr 3), .reg (.gpr 4)]⟩).map encode = some 0x7C6325AE#32 ∧
  (assemble ⟨.stfdux, [.reg (.fpr 4), .reg (.gpr 5), .reg (.gpr 6)]⟩).map encode = some 0x7C8535EE#32

/-- Assembling the line of an instruction gives it back (30_encoding.md R58, R59; the spelling is notes/assumptions/24.md). -/
def Obligations.AssembleOfDisassembleIsTheInstruction : Prop :=
  ∀ i : Instr, assemble (disassemble i) = some i

/-! ### Fetch and step -/

/-- 20_memory.md section 9 (R41, the spec's own decision D5, notes/assumptions/5.md): the four bytes at `pc`, big-endian, are
the word; when it decodes to an instruction, the step is that instruction's execution on the same state (nothing else happens
around it); a `pc` that is no multiple of 4 is `refuse(misaligned_fetch)`; no instruction in scope produces such a `pc`. -/
def Obligations.StepRunsTheDecodedInstruction : Prop :=
  (∀ (s : State) (b0 b1 b2 b3 : Byte) (i : Instr), s.pc.toNat % 4 = 0 →
    s.mem.read s.pc = some b0 → s.mem.read (s.pc + 1#32) = some b1 → s.mem.read (s.pc + 2#32) = some b2 →
    s.mem.read (s.pc + 3#32) = some b3 → decodeWord s.params.bit31Policy (b0 ++ b1 ++ b2 ++ b3) = .instr i →
    step s = exec i s) ∧
  (∀ (s : State), s.pc.toNat % 4 ≠ 0 → step s = .refused .misalignedFetch) ∧
  (∀ (i : Instr) (s t : State), s.pc.toNat % 4 = 0 → exec i s = .next t → t.pc.toNat % 4 = 0)

/-- A fetch that meets a byte which holds no value is refused by name (10_state.md R25; the model's choice of refusal over
fault, notes/assumptions/3.md). -/
def Obligations.FetchOfAnUnwrittenByteIsRefused : Prop :=
  ∀ (s : State) (k : Nat), k < 4 → s.pc.toNat % 4 = 0 → s.mem.read (s.pc + BitVec.ofNat 32 k) = none →
    step s = .refused .unwrittenFetch

/-- Loading any instruction at an aligned `pc` and stepping runs exactly it (the load is the model's, notes/assumptions/2.md;
30_encoding.md R59, 20_memory.md R41). -/
def Obligations.ALoadedInstructionIsTheNextToRun : Prop :=
  ∀ (s : State) (i : Instr), s.pc.toNat % 4 = 0 →
    step (s.withFetchWord 32 (encode i).toNat) = exec i (s.withFetchWord 32 (encode i).toNat)

/-- Every outcome of a step is one of 60_exceptions.md R72's, or the model's refusal of an unwritten fetch
(notes/assumptions/3.md), and no arm is left without a meaning. -/
def Obligations.EveryOutcomeIsOneTheSpecNames : Prop :=
  ∀ (s : State),
    (∃ t, step s = .next t) ∨ step s = .fault (.floatingPointUnavailable s.pc) ∨
    (∃ i, fetchInstr s = .ok i ∧
      (step s = .fault (.alignment (storeEA i s)) ∨ step s = .fault (.memoryFault (storeEA i s)) ∨
        step s = .refused .invalidFormRA0 ∨ step s = .refused .storeWrapsAddressSpace ∨
        step s = .refused .storeToProgramText)) ∨
    step s = .refused .reservedBit31 ∨ step s = .refused .pcWrap ∨ step s = .refused .misalignedFetch ∨
    step s = .refused .notInScope ∨ step s = .refused .unwrittenFetch

/-! ### The four instructions: result and completion -/

/-- `stfd` completes and this is its whole effect (40_fp_store_double.md R65, R62 lines 10 to 13), for every `FS`, `RA`, `d`,
`RA = 0` included, whenever no condition of R62 stops it. -/
def Obligations.StfdCompletes : Prop :=
  ∀ (fs ra : Reg) (d : BitVec 16) (s : State),
    let base64 : Dword := if ra = 0 then 0#64 else s.x.get ra
    let sum64 : Dword := base64 + d.signExtend 64
    let ea : Addr := sum64.extractLsb' 0 32
    s.pc ≠ 0xFFFFFFFC#32 → s.msr.fp = true → StoreAllowed s.params ea →
    exec (.stfd fs ra d) s = .next
      { s with
        rsv := s.rsv.filter (fun r => !r.overlaps s.params ea 8)
        mem := memWrite s.params s.mem ea (s.f.get fs)
        pc := s.pc + 4#32 }

/-- `stfdu` completes and this is its whole effect (R66, R64), for every valid form, and for `RA = 0` under
`INVALID_FORM_POLICY = as_snapshot` with `r0` as base and destination. -/
def Obligations.StfduCompletes : Prop :=
  ∀ (fs ra : Reg) (d : BitVec 16) (s : State),
    let sum64 : Dword := s.x.get ra + d.signExtend 64
    let ea : Addr := sum64.extractLsb' 0 32
    s.pc ≠ 0xFFFFFFFC#32 → (ra ≠ 0 ∨ s.params.invalidFormPolicy = .asSnapshot) → s.msr.fp = true →
    StoreAllowed s.params ea →
    exec (.stfdu fs ra d) s = .next
      { s with
        rsv := s.rsv.filter (fun r => !r.overlaps s.params ea 8)
        mem := memWrite s.params s.mem ea (s.f.get fs)
        x := s.x.set ra.val (0#32 ++ ea) ra.isLt
        pc := s.pc + 4#32 }

/-- `stfdx` completes and this is its whole effect (R67), for every `FS`, `RA`, `RB`, `RA = 0` and `RB = 0` included. -/
def Obligations.StfdxCompletes : Prop :=
  ∀ (fs ra rb : Reg) (s : State),
    let base64 : Dword := if ra = 0 then 0#64 else s.x.get ra
    let sum64 : Dword := base64 + s.x.get rb
    let ea : Addr := sum64.extractLsb' 0 32
    s.pc ≠ 0xFFFFFFFC#32 → s.msr.fp = true → StoreAllowed s.params ea →
    exec (.stfdx fs ra rb) s = .next
      { s with
        rsv := s.rsv.filter (fun r => !r.overlaps s.params ea 8)
        mem := memWrite s.params s.mem ea (s.f.get fs)
        pc := s.pc + 4#32 }

/-- `stfdux` completes and this is its whole effect (R68, R64), for every valid form, and for `RA = 0` under
`INVALID_FORM_POLICY = as_snapshot`. -/
def Obligations.StfduxCompletes : Prop :=
  ∀ (fs ra rb : Reg) (s : State),
    let sum64 : Dword := s.x.get ra + s.x.get rb
    let ea : Addr := sum64.extractLsb' 0 32
    s.pc ≠ 0xFFFFFFFC#32 → (ra ≠ 0 ∨ s.params.invalidFormPolicy = .asSnapshot) → s.msr.fp = true →
    StoreAllowed s.params ea →
    exec (.stfdux fs ra rb) s = .next
      { s with
        rsv := s.rsv.filter (fun r => !r.overlaps s.params ea 8)
        mem := memWrite s.params s.mem ea (s.f.get fs)
        x := s.x.set ra.val (0#32 ++ ea) ra.isLt
        pc := s.pc + 4#32 }

/-- An instruction completes exactly when no line of R62 stops it (40_fp_store_double.md section 1; lines 1, 3, 6, 7 and 9 are the
spec's own decisions D4, D2, D6, D13, D9, notes/assumptions/6.md, 8.md, 13.md to 15.md). -/
def Obligations.CompletesExactlyWhenAllowed : Prop :=
  ∀ (i : Instr) (s : State), (∃ t, exec i s = .next t) ↔ Completes i s

/-! ### Frames -/

/-- 10_state.md R24, the frame rule, for all four instructions: everything but the eight bytes at the effective address, the
reservation table (by invalidation only), `pc`, and `x[RA]` of the update forms is kept. -/
def Obligations.OnlyTheNamedStateChanges : Prop :=
  ∀ (i : Instr) (s t : State), exec i s = .next t →
    (match i with
      | .stfd _ _ _ => t.x = s.x
      | .stfdx _ _ _ => t.x = s.x
      | .stfdu _ ra _ => ∀ r, r ≠ ra → t.x.get r = s.x.get r
      | .stfdux _ ra _ => ∀ r, r ≠ ra → t.x.get r = s.x.get r) ∧
    t.f = s.f ∧ t.msr = s.msr ∧ t.fpscr = s.fpscr ∧ t.cr = s.cr ∧ t.xer = s.xer ∧ t.v = s.v ∧ t.params = s.params ∧
    (∀ r ∈ t.rsv, r ∈ s.rsv) ∧
    (∀ ea, storeEA i s = ea → ∀ a, (∀ k < 8, a ≠ ea + BitVec.ofNat 32 k) → t.mem.read a = s.mem.read a)

/-- 10_state.md R21, and section 4 to 6 for the other registers: FPSCR, CR, XER and the vector registers are not read or written
by any of the four: whatever they hold, the outcome of an instruction is the same, and a next state is the same but for them,
unchanged. (Their widths are PRESUMED, notes/assumptions/19.md; nothing rests on a width.) -/
def Obligations.StatusAndVectorRegistersAreNotRead : Prop :=
  ∀ (i : Instr) (s : State) (q c : BitVec 32) (xer : Xer) (v : Vector (BitVec 128) 32),
    (∀ t, exec i s = .next t →
      exec i { s with fpscr := q, cr := c, xer := xer, v := v } =
        .next { t with fpscr := q, cr := c, xer := xer, v := v }) ∧
    (∀ e, exec i s = .fault e → exec i { s with fpscr := q, cr := c, xer := xer, v := v } = .fault e) ∧
    (∀ e, exec i s = .refused e → exec i { s with fpscr := q, cr := c, xer := xer, v := v } = .refused e)

/-- 10_state.md section 3 (R16): an instruction that completes advances `pc` by 4 and writes it in no other way; one that raises
Floating-Point Unavailable reports the `pc` it stands at. -/
def Obligations.PcAdvancesByFour : Prop :=
  ∀ (i : Instr) (s : State),
    (∀ t, exec i s = .next t → t.pc = s.pc + 4#32) ∧
    (∀ a, exec i s = .fault (.floatingPointUnavailable a) → a = s.pc)

/-! ### Address, value, update -/

/-- 20_memory.md R27: the effective address is the low 32 bits of the 64-bit sum, which is the 32-bit sum of the low halves,
and the upper halves of the general registers have no effect on the address, on the memory left, or on the value an update
form writes. -/
def Obligations.UpperRegisterHalvesHaveNoEffect : Prop :=
  (∀ (base offset : Dword), effectiveAddress base offset = (base + offset).extractLsb' 0 32 ∧
    effectiveAddress base offset = base.extractLsb' 0 32 + offset.extractLsb' 0 32) ∧
  (∀ (i : Instr) (s : State) (x : Vector Dword 32),
    (∀ r : Reg, (x.get r).extractLsb' 0 32 = (s.x.get r).extractLsb' 0 32) →
    storeEA i { s with x := x } = storeEA i s ∧
    (∀ e, exec i s = .fault e → exec i { s with x := x } = .fault e) ∧
    (∀ e, exec i s = .refused e → exec i { s with x := x } = .refused e) ∧
    (∀ t, exec i s = .next t → ∃ t', exec i { s with x := x } = .next t' ∧ t'.mem = t.mem ∧ t'.rsv = t.rsv ∧
      t'.pc = t.pc ∧ ∀ ra, updatedRA i = some ra → t'.x.get ra = t.x.get ra))

/-- 30_encoding.md R48: the displacement is the signed value of the 16 raw bits, in -32768 to 32767, extended to 64 bits and
not scaled. -/
def Obligations.DisplacementIsSigned : Prop :=
  ∀ (d : BitVec 16), (extsD d).toInt = d.toInt ∧ -32768 ≤ d.toInt ∧ d.toInt ≤ 32767 ∧
    (extsD d).extractLsb' 0 16 = d ∧ ∀ k, 16 ≤ k → k < 64 → (extsD d).getLsbD k = d.getLsbD 15

/-- 30_encoding.md R49: field 0 in the `RA0` position is the literal 0 and `r0` is not read: whatever `r0` holds, `stfd` with
`RA = 0` has the same outcome, and so has `stfdx` with `RA = 0` whose index is another register. The update forms read
`x[RA]` plainly; `RB = 0` reads `r0`. -/
def Obligations.RA0ReadsTheLiteralZero : Prop :=
  (∀ (s : State) (fs : Reg) (d : BitVec 16), storeEA (.stfd fs 0 d) s = (d.signExtend 64).extractLsb' 0 32) ∧
  (∀ (s : State) (fs rb : Reg), storeEA (.stfdx fs 0 rb) s = (s.x.get rb).extractLsb' 0 32) ∧
  (∀ (s : State) (fs ra rb : Reg) (d : BitVec 16), ra ≠ 0 →
    storeEA (.stfd fs ra d) s = (s.x.get ra + d.signExtend 64).extractLsb' 0 32 ∧
    storeEA (.stfdx fs ra rb) s = (s.x.get ra + s.x.get rb).extractLsb' 0 32) ∧
  (∀ (s : State) (fs ra rb : Reg) (d : BitVec 16),
    storeEA (.stfdu fs ra d) s = (s.x.get ra + d.signExtend 64).extractLsb' 0 32 ∧
    storeEA (.stfdux fs ra rb) s = (s.x.get ra + s.x.get rb).extractLsb' 0 32) ∧
  (∀ (i : Instr) (s : State) (w : Dword),
    (match i with
      | .stfd _ ra _ => ra = 0
      | .stfdx _ ra rb => ra = 0 ∧ rb ≠ 0
      | .stfdu _ _ _ => False
      | .stfdux _ _ _ => False) →
    (∀ t, exec i s = .next t → exec i (s.setGpr 0 w) = .next (t.setGpr 0 w)) ∧
    (∀ e, exec i s = .fault e → exec i (s.setGpr 0 w) = .fault e) ∧
    (∀ e, exec i s = .refused e → exec i (s.setGpr 0 w) = .refused e)) ∧
  (∀ (fs rb : Reg) (d : BitVec 16),
    (Instr.stfdu fs 0 d).wellFormed = false ∧ (Instr.stfdux fs 0 rb).wellFormed = false)

/-- 40_fp_store_double.md section 4: the address sum at the corners of R69's table. -/
def Obligations.AddressSumCorners : Prop :=
  effectiveAddress 0#64 0#64 = 0#32 ∧
  effectiveAddress 0#64 (extsD 0x8000#16) = 0xFFFF8000#32 ∧
  effectiveAddress 0#64 (extsD 0x7FFF#16) = 0x00007FFF#32 ∧
  effectiveAddress 0x00000000FFFFFFFF#64 1#64 = 0#32 ∧
  effectiveAddress 0xFFFFFFFFFFFFFFFF#64 1#64 = 0#32 ∧
  effectiveAddress 0x123456789ABCDEF0#64 0x10#64 = 0x9ABCDF00#32 ∧
  effectiveAddress 0x0000000080000000#64 0x0000000080000000#64 = 0#32 ∧
  effectiveAddress 0x0000000000001000#64 (extsD 0xFFF8#16) = 0x00000FF8#32

/-- 20_memory.md section 2 (R29; the six middle bytes are the spec's derivation) and 40_fp_store_double.md section 1 (R63): the
eight bytes at the effective address are the 64 bits of `f[FS]` unchanged, most significant first, for every bit pattern, and
`f[FS]` and the FPSCR are as before. -/
def Obligations.TheStoredBytesAreTheRegisterBigEndian : Prop :=
  ∀ (i : Instr) (s t : State) (fs : Reg),
    (match i with
      | .stfd n _ _ => n = fs
      | .stfdu n _ _ => n = fs
      | .stfdx n _ _ => n = fs
      | .stfdux n _ _ => n = fs) →
    exec i s = .next t →
    (∀ k < 8, t.mem.read (storeEA i s + BitVec.ofNat 32 k) = some ((s.f.get fs).extractLsb' (56 - 8 * k) 8)) ∧
    t.f.get fs = s.f.get fs ∧ t.fpscr = s.fpscr

/-- 20_memory.md section 2 (R30, which the spec derives from R26 and R29): after the store a big-endian read of any width inside
the eight bytes sees that slice of the value; of two stores in a row the later one's bytes stand where they overlap. -/
def Obligations.ReadsOfAnyWidthSeeTheStore : Prop :=
  (∀ (i : Instr) (s t : State), exec i s = .next t → ∀ k n, k + n ≤ 8 →
    memRead t.mem (storeEA i s + BitVec.ofNat 32 k) n =
      some ((s.f.get (sourceFS i)).extractLsb' (64 - 8 * (k + n)) (8 * n))) ∧
  (∀ (i j : Instr) (s t u : State), exec i s = .next t → exec j t = .next u →
    (∀ k < 8, u.mem.read (storeEA j t + BitVec.ofNat 32 k) =
      some ((t.f.get (sourceFS j)).extractLsb' (56 - 8 * k) 8)) ∧
    (∀ k < 8, (∀ l < 8, storeEA i s + BitVec.ofNat 32 k ≠ storeEA j t + BitVec.ofNat 32 l) →
      u.mem.read (storeEA i s + BitVec.ofNat 32 k) = some ((s.f.get (sourceFS i)).extractLsb' (56 - 8 * k) 8)))

/-- 40_fp_store_double.md section 1 (R64): an update form that completes leaves the zero-extended effective address in `x[RA]`,
upper half 0, computed from the registers before; the other forms write no general register. (The cleared upper half is the
snapshot's, decision D1, notes/assumptions/7.md.) -/
def Obligations.UpdateWritesTheZeroExtendedAddress : Prop :=
  (∀ (fs ra : Reg) (d : BitVec 16) (s t : State), exec (.stfdu fs ra d) s = .next t →
    (t.x.get ra).extractLsb' 0 32 = (s.x.get ra + d.signExtend 64).extractLsb' 0 32 ∧
    (t.x.get ra).extractLsb' 32 32 = 0#32) ∧
  (∀ (fs ra rb : Reg) (s t : State), exec (.stfdux fs ra rb) s = .next t →
    (t.x.get ra).extractLsb' 0 32 = (s.x.get ra + s.x.get rb).extractLsb' 0 32 ∧
    (t.x.get ra).extractLsb' 32 32 = 0#32) ∧
  (∀ (fs ra : Reg) (d : BitVec 16) (s t : State), exec (.stfd fs ra d) s = .next t → t.x = s.x) ∧
  (∀ (fs ra rb : Reg) (s t : State), exec (.stfdx fs ra rb) s = .next t → t.x = s.x)

/-- 40_fp_store_double.md section 6 (R71): register-number coincidences. With `RA = RB` the address is twice the old register, in
`stfdux` the one write comes after both reads; the value stored is `f[FS]` as it was before, whatever `RA` is. The byte layout
is 20_memory.md section 2's (R29); that the updated `RA` has upper half 0 is section 1's and 3's (R64, R68), by the spec's own
decision D1 (notes/assumptions/7.md, DEDUCED, unsafe). -/
def Obligations.ReadsComeBeforeTheWrite : Prop :=
  (∀ (fs r : Reg) (s t : State), exec (.stfdux fs r r) s = .next t →
    let ea : Addr := (s.x.get r + s.x.get r).extractLsb' 0 32
    t.x.get r = 0#32 ++ ea ∧
    ∀ k < 8, t.mem.read (ea + BitVec.ofNat 32 k) = some ((s.f.get fs).extractLsb' (56 - 8 * k) 8)) ∧
  (∀ (fs r : Reg) (s t : State), r ≠ 0 → exec (.stfdx fs r r) s = .next t →
    let ea : Addr := (s.x.get r + s.x.get r).extractLsb' 0 32
    ∀ k < 8, t.mem.read (ea + BitVec.ofNat 32 k) = some ((s.f.get fs).extractLsb' (56 - 8 * k) 8)) ∧
  (∀ (r : Reg) (d : BitVec 16) (s t : State), exec (.stfdu r r d) s = .next t →
    let ea : Addr := (s.x.get r + d.signExtend 64).extractLsb' 0 32
    t.x.get r = 0#32 ++ ea ∧ t.f = s.f ∧
    ∀ k < 8, t.mem.read (ea + BitVec.ofNat 32 k) = some ((s.f.get r).extractLsb' (56 - 8 * k) 8)) ∧
  (∀ (i : Instr) (s t : State), exec i s = .next t → ∀ k < 8,
    t.mem.read (storeEA i s + BitVec.ofNat 32 k) = some ((s.f.get (sourceFS i)).extractLsb' (56 - 8 * k) 8))

/-- The next instruction sees the updated base: an `stfdu` or `stfd` after an `stfdu` with the same `RA` (other than 0) stores
at its displacement past the first one's address (40_fp_store_double.md R66, 70_reset_and_hazards.md R87). -/
def Obligations.TheNextInstructionSeesTheUpdatedBase : Prop :=
  ∀ (fs fs' ra : Reg) (d d' : BitVec 16) (s t : State), ra ≠ 0 → exec (.stfdu fs ra d) s = .next t →
    storeEA (.stfdu fs' ra d') t = storeEA (.stfdu fs ra d) s + d'.signExtend 32 ∧
    storeEA (.stfd fs' ra d') t = storeEA (.stfdu fs ra d) s + d'.signExtend 32

/-! ### Reservations and atomicity -/

/-- A store clears exactly the reservations, whoever holds them, whose granule holds one of the eight bytes (20_memory.md section 8,
R40, the spec's own decision D12; the table's format is the model's, notes/assumptions/16.md). -/
def Obligations.AStoreClearsTheReservationsItTouches : Prop :=
  ∀ (i : Instr) (s t : State), exec i s = .next t → ∀ r : Reservation,
    r ∈ t.rsv ↔ r ∈ s.rsv ∧ ¬ ∃ k < 8,
      (storeEA i s + BitVec.ofNat 32 k).toNat / 2 ^ s.params.granuleLog2 = r.addr.toNat / 2 ^ s.params.granuleLog2

/-- 20_memory.md section 4 (R34, the spec's own decision D8, notes/assumptions/18.md) for one thread: every setting of
`ATOMIC_ALIGNED_DW` gives every instruction the same outcome on canonical memory. -/
def Obligations.AtomicAndByteWiseStoresAgree : Prop :=
  ∀ (i : Instr) (s : State) (b : Bool), s.mem.wf →
    (∀ t, exec i s = .next t →
      exec i { s with params := { s.params with atomicAlignedDW := b } } =
        .next { t with params := { t.params with atomicAlignedDW := b } }) ∧
    (∀ e, exec i s = .fault e → exec i { s with params := { s.params with atomicAlignedDW := b } } = .fault e) ∧
    (∀ e, exec i s = .refused e → exec i { s with params := { s.params with atomicAlignedDW := b } } = .refused e)

/-- 20_memory.md section 4 (R34, decision D8, notes/assumptions/18.md): the eight byte writes have no stated order, and none
matters: every order leaves the same memory. -/
def Obligations.TheOrderOfTheByteWritesDoesNotMatter : Prop :=
  ∀ (order : List Nat) (m : Memory) (ea : Addr) (v : Dword), m.wf → ea.toNat ≤ 0xFFFFFFF8 →
    order.Perm (List.range 8) → writeBytesInOrder order m ea v = writeBytesInOrder (List.range 8) m ea v

/-! ### Exceptions and refusals -/

/-- 60_exceptions.md sections 1 and 3 (R72, R78): the outcome is the first in the order of R62 whose condition holds, each with
its recorded value; for a reserved word the order is the step's. The order is the spec's own decision D15,
notes/assumptions/10.md. -/
def Obligations.TheFirstConditionInOrderDecides : Prop :=
  (∀ (i : Instr) (s : State),
    let ea := storeEA i s
    let text := ∃ k < 8, s.params.inProgramText (ea + BitVec.ofNat 32 k) = true
    let hole := ∃ k < 8, s.params.isAdmitted (ea + BitVec.ofNat 32 k) = false
    (exec i s = .refused .pcWrap ↔ s.pc = 0xFFFFFFFC#32) ∧
    (exec i s = .refused .invalidFormRA0 ↔ s.pc ≠ 0xFFFFFFFC#32 ∧ ¬ FormAllowed s.params i) ∧
    (∀ a, exec i s = .fault (.floatingPointUnavailable a) ↔
      s.pc ≠ 0xFFFFFFFC#32 ∧ FormAllowed s.params i ∧ s.msr.fp = false ∧ a = s.pc) ∧
    (exec i s = .refused .storeWrapsAddressSpace ↔
      s.pc ≠ 0xFFFFFFFC#32 ∧ FormAllowed s.params i ∧ s.msr.fp = true ∧ 0xFFFFFFF8 < ea.toNat) ∧
    (exec i s = .refused .storeToProgramText ↔
      s.pc ≠ 0xFFFFFFFC#32 ∧ FormAllowed s.params i ∧ s.msr.fp = true ∧ ea.toNat ≤ 0xFFFFFFF8 ∧ text) ∧
    (∀ a, exec i s = .fault (.alignment a) ↔
      s.pc ≠ 0xFFFFFFFC#32 ∧ FormAllowed s.params i ∧ s.msr.fp = true ∧ ea.toNat ≤ 0xFFFFFFF8 ∧ ¬ text ∧
        s.params.alignFaults ea = true ∧ a = ea) ∧
    (∀ a, exec i s = .fault (.memoryFault a) ↔
      s.pc ≠ 0xFFFFFFFC#32 ∧ FormAllowed s.params i ∧ s.msr.fp = true ∧ ea.toNat ≤ 0xFFFFFFF8 ∧ ¬ text ∧
        s.params.alignFaults ea = false ∧ hole ∧ a = ea)) ∧
  (∀ (s : State) (w : Word), s.pc.toNat % 4 = 0 → fetchWord s = some w →
    decodeWord s.params.bit31Policy w = .reservedBit31 →
    step s = .refused (if s.pc = 0xFFFFFFFC#32 then .pcWrap else .reservedBit31))

/-- 60_exceptions.md section 1 (R73): with MSR[FP] = 0 none of the four executes, whatever the operands: a valid form at any `pc`
but the last raises Floating-Point Unavailable with the instruction's address, and no form completes. (That an invalid form
and the last `pc` are refused first is decision D15, notes/assumptions/10.md.) -/
def Obligations.DisabledFloatingPointIsReported : Prop :=
  ∀ (i : Instr) (s : State), s.msr.fp = false →
    (i.wellFormed = true → s.pc ≠ 0xFFFFFFFC#32 → exec i s = .fault (.floatingPointUnavailable s.pc)) ∧
    ∀ t, exec i s ≠ .next t

/-- 30_encoding.md section 4 (R55, the spec's own decision D2, notes/assumptions/8.md): the invalid forms. Which words they are;
under the default policy the step is `refuse(invalid_form_RA0)`; under `as_snapshot` the instruction executes with `r0` as
base and as the register updated. -/
def Obligations.InvalidFormsFollowThePolicy : Prop :=
  (∀ (p : Bit31Policy) (w : Word),
    (w &&& 0xFC1F0000#32 = 0xDC000000#32 ↔ ∃ fs d, decodeWord p w = .instr (.stfdu fs 0 d))) ∧
  (∀ (w : Word),
    (w &&& 0xFC1F07FF#32 = 0x7C0005EE#32 ↔ ∃ fs rb, decodeWord .refuse w = .instr (.stfdux fs 0 rb))) ∧
  (∀ (fs rb : Reg) (d : BitVec 16) (s : State), s.params.invalidFormPolicy = .refuse → s.pc ≠ 0xFFFFFFFC#32 →
    exec (.stfdu fs 0 d) s = .refused .invalidFormRA0 ∧ exec (.stfdux fs 0 rb) s = .refused .invalidFormRA0) ∧
  (∀ (fs : Reg) (d : BitVec 16) (s : State), s.params.invalidFormPolicy = .asSnapshot → s.pc ≠ 0xFFFFFFFC#32 →
    s.msr.fp = true → StoreAllowed s.params ((s.x.get 0 + d.signExtend 64).extractLsb' 0 32) →
    ∃ t, exec (.stfdu fs 0 d) s = .next t ∧
      t.x.get 0 = 0#32 ++ (s.x.get 0 + d.signExtend 64).extractLsb' 0 32) ∧
  (∀ (fs rb : Reg) (s : State), s.params.invalidFormPolicy = .asSnapshot → s.pc ≠ 0xFFFFFFFC#32 →
    s.msr.fp = true → StoreAllowed s.params ((s.x.get 0 + s.x.get rb).extractLsb' 0 32) →
    ∃ t, exec (.stfdux fs 0 rb) s = .next t ∧ t.x.get 0 = 0#32 ++ (s.x.get 0 + s.x.get rb).extractLsb' 0 32)

/-- 10_state.md section 3 (R17, the spec's own decision D4, notes/assumptions/6.md): a fetched instruction's `pc` is a multiple of
4, and at `0xFFFFFFFC` the step on any of the four is `refuse(pc_wrap)`. -/
def Obligations.TheLastPcIsRefused : Prop :=
  (∀ (s : State) (i : Instr), fetchInstr s = .ok i → s.pc.toNat % 4 = 0) ∧
  (∀ (s : State) (i : Instr), fetchInstr s = .ok i → s.pc = 0xFFFFFFFC#32 → step s = .refused .pcWrap)

/-- 20_memory.md section 3 (R31) and 60_exceptions.md section 1 (R74; the parameter is decision D7, notes/assumptions/12.md): with
no alignment rule set, no effective address raises the alignment exception and an unaligned store completes like any other;
an alignment exception is raised only where a rule holds at the effective address, and carries that address. -/
def Obligations.UnalignedStoresAreTolerated : Prop :=
  (∀ (i : Instr) (s : State), s.params.alignFault = [] → ∀ a, exec i s ≠ .fault (.alignment a)) ∧
  (∀ (i : Instr) (s : State), s.params.alignFault = [] → s.pc ≠ 0xFFFFFFFC#32 → FormAllowed s.params i →
    s.msr.fp = true → (storeEA i s).toNat ≤ 0xFFFFFFF8 →
    (∀ k < 8, s.params.inProgramText (storeEA i s + BitVec.ofNat 32 k) = false ∧
      s.params.isAdmitted (storeEA i s + BitVec.ofNat 32 k) = true) →
    ∃ t, exec i s = .next t ∧
      ∀ k < 8, t.mem.read (storeEA i s + BitVec.ofNat 32 k) = some ((s.f.get (sourceFS i)).extractLsb' (56 - 8 * k) 8)) ∧
  (∀ (i : Instr) (s : State) (a : Addr), exec i s = .fault (.alignment a) →
    a = storeEA i s ∧ s.params.alignFaults a = true)

/-- 20_memory.md sections 3, 5 and 9 (R33, R36, R42, the spec's own decisions D6, D9, D13, D20, notes/assumptions/11.md, 13.md to
15.md): no store is performed in part. A store whose bytes pass the top of the address space, lie in the program text, or are
not all admitted does not complete; when nothing earlier stops it the last of these is `raise MemoryFault(EA)`. -/
def Obligations.NoStoreIsPerformedInPart : Prop :=
  (∀ (i : Instr) (s t : State), exec i s = .next t →
    (storeEA i s).toNat ≤ 0xFFFFFFF8 ∧
    ∀ k < 8, s.params.isAdmitted (storeEA i s + BitVec.ofNat 32 k) = true ∧
      s.params.inProgramText (storeEA i s + BitVec.ofNat 32 k) = false) ∧
  (∀ (i : Instr) (s : State) (k : Nat), k < 8 → s.pc ≠ 0xFFFFFFFC#32 → FormAllowed s.params i → s.msr.fp = true →
    (storeEA i s).toNat ≤ 0xFFFFFFF8 →
    (∀ l < 8, s.params.inProgramText (storeEA i s + BitVec.ofNat 32 l) = false) →
    s.params.alignFaults (storeEA i s) = false → s.params.isAdmitted (storeEA i s + BitVec.ofNat 32 k) = false →
    exec i s = .fault (.memoryFault (storeEA i s)))

/-! ### Whole-machine rules -/

/-- The invariant holds right after reset (the reset values are the model's, notes/assumptions/1.md to 3.md and 16.md). -/
def Obligations.ResetMeetsTheInvariant : Prop := Inv State.reset

/-- Every step keeps the invariant: memory in its canonical form (notes/assumptions/3.md), `pc` a multiple of 4
(20_memory.md R41), no reservation listed twice (notes/assumptions/16.md). -/
def Obligations.EveryStepKeepsTheInvariant : Prop :=
  ∀ (s t : State), Inv s → step s = .next t → Inv t

/-- Isolation: a step changes only bytes that are admitted and lie outside the program text (20_memory.md R36, R42). -/
def Obligations.AStepWritesOnlyAdmittedDataBytes : Prop :=
  ∀ (s t : State), step s = .next t → ∀ a, t.mem.read a ≠ s.mem.read a →
    s.params.isAdmitted a = true ∧ s.params.inProgramText a = false

/-- Along every run, of any length and from any state: the program text reads as at the start, the floating-point registers,
the status and vector registers and the launch parameters are those of the start, no reservation appears, and `pc` has moved
on by 4 a step without wrapping (10_state.md R16, R17, R24; 20_memory.md R42; 40_fp_store_double.md R70). -/
def Obligations.RunsAreStraightLinesOverFixedText : Prop :=
  ∀ (k : Nat) (s t : State), core.run k s = .next t →
    (∀ a, s.params.inProgramText a = true → t.mem.read a = s.mem.read a) ∧
    t.f = s.f ∧ t.msr = s.msr ∧ t.fpscr = s.fpscr ∧ t.cr = s.cr ∧ t.xer = s.xer ∧ t.v = s.v ∧ t.params = s.params ∧
    (∀ r ∈ t.rsv, r ∈ s.rsv) ∧ t.pc.toNat = s.pc.toNat + 4 * k

/-- The launch premises are enough for a step: an instruction stored at an aligned `pc` whose conditions hold runs, and the
machine goes on at `pc + 4` (70_reset_and_hazards.md section 1, R85, decision D17; 40_fp_store_double.md section 5, R70). -/
def Obligations.ALaunchedInstructionRuns : Prop :=
  ∀ (s : State) (w : Word) (i : Instr), s.pc.toNat % 4 = 0 → fetchWord s = some w →
    decodeWord s.params.bit31Policy w = .instr i → Completes i s →
    SafeRun 1 s ∧ ∃ t, step s = .next t ∧ t.pc.toNat = s.pc.toNat + 4
end

