-- ==== Sys2Proof/Laws/Decode.lean ====
section
/-! SUPPORT. The laws of the opcode map and of the fields of an encoded word. -/

namespace Sys2Proof

/-- No word is accepted by two rows of the opcode map. -/
theorem opcodeMap_disjoint :
    opcodeMap.Pairwise (fun r q => (r.pattern ^^^ q.pattern) &&& r.mask &&& q.mask ≠ 0#32) := by decide

/-- `lookup` with the map's rows written out. -/
theorem lookup_eq (w : Word) :
    lookup w =
      if w &&& 0xFC000000#32 = 0xD8000000#32 then some .stfd
      else if w &&& 0xFC000000#32 = 0xDC000000#32 then some .stfdu
      else if w &&& 0xFC0007FF#32 = 0x7C0005AE#32 then some .stfdx
      else if w &&& 0xFC0007FF#32 = 0x7C0005EE#32 then some .stfdux
      else none := by
  have row (m : Mnemonic) (v k : Word) (l : List OpcodeRow) :
      (((⟨m, v, k⟩ : OpcodeRow) :: l).find? (·.accepts w)).map (·.mnemonic) =
        if w &&& k = v then some m else (l.find? (·.accepts w)).map (·.mnemonic) := by
    rw [List.find?_cons]
    by_cases h : w &&& k = v
    · simp [OpcodeRow.accepts, h]
    · simp [OpcodeRow.accepts, h, beq_eq_false_iff_ne.2 h]
  rw [lookup, opcodeMap, row, row, row, row]
  rfl

/-- The opcode bits alone of a word whose opcode and extended opcode are known. -/
theorem opcd_of_and_mask {w u : Word} (h : w &&& 0xFC0007FF#32 = u) : w &&& 0xFC000000#32 = u &&& 0xFC000000#32 := by
  rw [← h, BitVec.and_assoc]
  rfl

theorem lookup_stfd (w : Word) : lookup w = some .stfd ↔ w &&& 0xFC000000#32 = 0xD8000000#32 := by
  rw [lookup_eq]
  repeat' split
  all_goals simp_all

theorem lookup_stfdu (w : Word) : lookup w = some .stfdu ↔ w &&& 0xFC000000#32 = 0xDC000000#32 := by
  rw [lookup_eq]
  repeat' split
  all_goals simp_all

theorem lookup_stfdx (w : Word) : lookup w = some .stfdx ↔ w &&& 0xFC0007FF#32 = 0x7C0005AE#32 := by
  refine ⟨fun h => ?_, fun h => ?_⟩
  · rw [lookup_eq] at h
    repeat' split at h
    all_goals simp_all
  · rw [lookup_eq, opcd_of_and_mask h, h]
    rfl

theorem lookup_stfdux (w : Word) : lookup w = some .stfdux ↔ w &&& 0xFC0007FF#32 = 0x7C0005EE#32 := by
  refine ⟨fun h => ?_, fun h => ?_⟩
  · rw [lookup_eq] at h
    repeat' split at h
    all_goals simp_all
  · rw [lookup_eq, opcd_of_and_mask h, h]
    rfl

/-! ### Fields of an encoded word -/

section fields
variable (op : BitVec 6) (fs ra rb : Reg) (d : BitVec 16) (xo : BitVec 10)

/-- A field of five bits that reads as the field of a register is that register. -/
theorem toFin_regField (r : Reg) {b : BitVec 5} (h : ∀ i (hi : i < 5), b[i] = (regField r)[i]) : b.toFin = r := by
  have : b = regField r := BitVec.eq_of_getElem_eq h
  rw [this]; rfl

theorem fieldFS_encodeD : fieldFS (encodeD op fs ra d) = fs := by
  refine toFin_regField fs fun i hi => ?_
  have h1 : ¬ 21 + i < 16 := by omega
  have h2 : ¬ 21 + i - 16 < 5 := by omega
  have h3 : 21 + i - 16 - 5 = i := by omega
  simp only [encodeD, BitVec.getElem_extractLsb', BitVec.getLsbD_append, h1, h2, h3, hi, if_false, if_true]
  exact BitVec.getLsbD_eq_getElem hi

theorem fieldRA_encodeD : fieldRA (encodeD op fs ra d) = ra := by
  refine toFin_regField ra fun i hi => ?_
  have h1 : ¬ 16 + i < 16 := by omega
  have h2 : 16 + i - 16 = i := by omega
  simp only [encodeD, BitVec.getElem_extractLsb', BitVec.getLsbD_append, h1, h2, hi, if_false, if_true]
  exact BitVec.getLsbD_eq_getElem hi

theorem fieldD_encodeD : fieldD (encodeD op fs ra d) = d := by
  refine BitVec.eq_of_getElem_eq fun i hi => ?_
  have h : 0 + i = i := by omega
  simp only [fieldD, encodeD, BitVec.getElem_extractLsb', BitVec.getLsbD_append, h, hi, if_true]
  exact BitVec.getLsbD_eq_getElem hi

theorem fieldFS_encodeX : fieldFS (encodeX op fs ra rb xo) = fs := by
  refine toFin_regField fs fun i hi => ?_
  have h1 : ¬ 21 + i < 1 := by omega
  have h2 : ¬ 21 + i - 1 < 10 := by omega
  have h3 : ¬ 21 + i - 1 - 10 < 5 := by omega
  have h4 : ¬ 21 + i - 1 - 10 - 5 < 5 := by omega
  have h5 : 21 + i - 1 - 10 - 5 - 5 = i := by omega
  simp only [encodeX, BitVec.getElem_extractLsb', BitVec.getLsbD_append, h1, h2, h3, h4, h5, hi, if_false, if_true]
  exact BitVec.getLsbD_eq_getElem hi

theorem fieldRA_encodeX : fieldRA (encodeX op fs ra rb xo) = ra := by
  refine toFin_regField ra fun i hi => ?_
  have h1 : ¬ 16 + i < 1 := by omega
  have h2 : ¬ 16 + i - 1 < 10 := by omega
  have h3 : ¬ 16 + i - 1 - 10 < 5 := by omega
  have h4 : 16 + i - 1 - 10 - 5 = i := by omega
  simp only [encodeX, BitVec.getElem_extractLsb', BitVec.getLsbD_append, h1, h2, h3, h4, hi, if_false, if_true]
  exact BitVec.getLsbD_eq_getElem hi

theorem fieldRB_encodeX : fieldRB (encodeX op fs ra rb xo) = rb := by
  refine toFin_regField rb fun i hi => ?_
  have h1 : ¬ 11 + i < 1 := by omega
  have h2 : ¬ 11 + i - 1 < 10 := by omega
  have h3 : 11 + i - 1 - 10 = i := by omega
  simp only [encodeX, BitVec.getElem_extractLsb', BitVec.getLsbD_append, h1, h2, h3, hi, if_false, if_true]
  exact BitVec.getLsbD_eq_getElem hi

/-- The opcode bits of a D-form word. -/
theorem encodeD_and_mask : encodeD op fs ra d &&& 0xFC000000#32 = op ++ 0#26 := by
  apply BitVec.eq_of_getLsbD_eq
  intro i hi
  simp only [encodeD, BitVec.getLsbD_and, BitVec.getLsbD_append]
  interval_cases i <;> simp

/-- The opcode bits of an X-form word. -/
theorem encodeX_and_mask : encodeX op fs ra rb xo &&& 0xFC0007FF#32 = op ++ 0#15 ++ xo ++ 0#1 := by
  apply BitVec.eq_of_getLsbD_eq
  intro i hi
  simp only [encodeX, BitVec.getLsbD_and, BitVec.getLsbD_append]
  interval_cases i <;> simp
end fields

end Sys2Proof
end

