-- ==== Sys2Proof/Laws/Memory.lean ====
section
/-! SUPPORT. The laws of memory: read after write, the canonical form is kept, and canonical memories that read the same are
equal. -/

namespace Sys2Proof.Machine

/-! ### One byte -/

/-- A read after a write to the same address gives the value written. -/
@[simp] theorem Memory.read_write_same (m : Memory) (a : Addr) (b : Byte) : (m.write a b).read a = some b := by
  induction m with
  | nil => simp [Memory.write, Memory.read]
  | cons c m ih =>
    obtain ⟨k, c⟩ := c
    unfold Memory.write
    split
    · simp [Memory.read]
    · split
      · simp_all [Memory.read]
      · have : k ≠ a.toNat := by omega
        simp [Memory.read, this, ih]

/-- A write leaves every other address alone. -/
theorem Memory.read_write_ne (m : Memory) {a c : Addr} (b : Byte) (h : c ≠ a) : (m.write a b).read c = m.read c := by
  have hn : a.toNat ≠ c.toNat := fun e => h (BitVec.eq_of_toNat_eq e.symm)
  induction m with
  | nil => simp [Memory.write, Memory.read, hn]
  | cons d m ih =>
    obtain ⟨k, d⟩ := d
    unfold Memory.write
    split
    · simp [Memory.read, hn]
    · split
      · have : k ≠ c.toNat := by omega
        simp [Memory.read, this]
      · simp only [Memory.read, ih]

/-- Every key after a write is a key before it or the address written. -/
theorem Memory.key_write {m : Memory} {a : Addr} {b : Byte} {c : Host.Cell} (h : c ∈ m.write a b) :
    c.1 = a.toNat ∨ ∃ d ∈ m, d.1 = c.1 := by
  induction m with
  | nil => simp [Memory.write] at h; exact .inl (by rw [h])
  | cons d m ih =>
    obtain ⟨k, d⟩ := d
    unfold Memory.write at h
    split at h
    · simp only [List.mem_cons] at h
      obtain rfl | rfl | h := h
      · exact .inl rfl
      · exact .inr ⟨_, List.mem_cons_self, rfl⟩
      · exact .inr ⟨_, List.mem_cons_of_mem _ h, rfl⟩
    · split at h <;> simp only [List.mem_cons] at h
      · obtain rfl | h := h
        · exact .inr ⟨_, List.mem_cons_self, rfl⟩
        · exact .inr ⟨_, List.mem_cons_of_mem _ h, rfl⟩
      · obtain rfl | h := h
        · exact .inr ⟨_, List.mem_cons_self, rfl⟩
        · obtain h | ⟨e, he, h⟩ := ih h
          · exact .inl h
          · exact .inr ⟨e, List.mem_cons_of_mem _ he, h⟩

/-- A write keeps the canonical form. -/
theorem Memory.write_wf {m : Memory} (h : m.wf) (a : Addr) (b : Byte) : (m.write a b).wf := by
  refine ⟨?_, fun c hc => ?_⟩
  · replace h := h.1
    induction m with
    | nil => simp [Memory.write]
    | cons d m ih =>
      obtain ⟨k, d⟩ := d
      obtain ⟨hk, hm⟩ := List.pairwise_cons.1 h
      unfold Memory.write
      split
      · refine List.pairwise_cons.2 ⟨fun c hc => ?_, h⟩
        obtain rfl | hc := List.mem_cons.1 hc
        · assumption
        · have := hk c hc; simp only at this ⊢; omega
      · split
        · exact List.pairwise_cons.2 ⟨hk, hm⟩
        · refine List.pairwise_cons.2 ⟨fun c hc => ?_, ih hm⟩
          obtain e | ⟨e, he, h'⟩ := Memory.key_write hc
          · simp only; omega
          · rw [← h']; exact hk e he
  · obtain e | ⟨d, hd, e⟩ := Memory.key_write hc
    · rw [e]; exact a.isLt
    · rw [← e]; exact h.2 d hd

/-- Nothing is read below the first listed address. -/
theorem Memory.read_eq_none_of_lt {m : Memory} {a : Addr} (h : ∀ c ∈ m, a.toNat < c.1) : m.read a = none := by
  induction m with
  | nil => rfl
  | cons d m ih =>
    obtain ⟨k, d⟩ := d
    have hk := h (k, d) List.mem_cons_self
    have : k ≠ a.toNat := by simp only at hk; omega
    simp only [Memory.read, this, if_false]
    exact ih fun c hc => h c (List.mem_cons_of_mem _ hc)

/-- Canonical memories that read the same at every address are the same list. -/
theorem Memory.eq_of_read_eq {m n : Memory} (hm : m.wf) (hn : n.wf) (h : ∀ a, m.read a = n.read a) : m = n := by
  have key {k : Nat} (hk : k < 2 ^ 32) : (BitVec.ofNat 32 k).toNat = k := by
    rw [BitVec.toNat_ofNat, Nat.mod_eq_of_lt hk]
  have headLt {k : Nat} {b : Byte} {l : Memory} (hl : Memory.wf ((k, b) :: l)) :
      ∀ c ∈ l, (BitVec.ofNat 32 k).toNat < c.1 := fun c hc => by
    rw [key (hl.2 _ List.mem_cons_self)]; exact (List.pairwise_cons.1 hl.1).1 c hc
  have tail {c : Host.Cell} {l : Memory} (hl : Memory.wf (c :: l)) : Memory.wf l :=
    ⟨(List.pairwise_cons.1 hl.1).2, fun c hc => hl.2 c (List.mem_cons_of_mem _ hc)⟩
  induction m generalizing n with
  | nil =>
    cases n with
    | nil => rfl
    | cons d n =>
      obtain ⟨k, d⟩ := d
      have := h (BitVec.ofNat 32 k)
      simp only [Memory.read, key (hn.2 _ List.mem_cons_self)] at this
      simp at this
  | cons c m ih =>
    obtain ⟨j, c⟩ := c
    have hj := key (hm.2 _ List.mem_cons_self)
    cases n with
    | nil =>
      have := h (BitVec.ofNat 32 j)
      simp only [Memory.read, hj] at this
      simp at this
    | cons d n =>
      obtain ⟨k, d⟩ := d
      have hk := key (hn.2 _ List.mem_cons_self)
      have at_j := h (BitVec.ofNat 32 j)
      have at_k := h (BitVec.ofNat 32 k)
      simp only [Memory.read, hj, hk, if_true] at at_j at_k
      have hjk : j = k := by
        rcases Nat.lt_trichotomy j k with lt | e | lt
        · rw [if_neg (by omega), Memory.read_eq_none_of_lt fun c hc => ?_] at at_j
          · simp at at_j
          · have := headLt hn c hc; rw [hk] at this; rw [hj]; omega
        · exact e
        · rw [if_neg (by omega), Memory.read_eq_none_of_lt fun c hc => ?_] at at_k
          · simp at at_k
          · have := headLt hm c hc; rw [hj] at this; rw [hk]; omega
      subst hjk
      simp only [if_true, Option.some.injEq] at at_j
      subst at_j
      congr 1
      refine ih (tail hm) (tail hn) fun a => ?_
      by_cases ha : j = a.toNat
      · have ha' : BitVec.ofNat 32 j = a := BitVec.eq_of_toNat_eq (by rw [hj, ha])
        subst ha'
        rw [Memory.read_eq_none_of_lt (headLt hm), Memory.read_eq_none_of_lt (headLt hn)]
      · have := h a
        simpa only [Memory.read, ha, if_false] using this

/-! ### The doubleword store -/

/-- Within an allowed store no byte address wraps. -/
theorem byteAddr_toNat {ea : Addr} (h : ea.toNat ≤ 0xFFFFFFF8) {i : Nat} (hi : i < 8) :
    (byteAddr ea i).toNat = ea.toNat + i := by
  rw [byteAddr, BitVec.toNat_add, BitVec.toNat_ofNat]; omega

/-- Byte writes in any order that names byte numbers below 8: a byte number named reads as its byte, every other address as
before. -/
theorem writeBytesInOrder_read {ea : Addr} (h : ea.toNat ≤ 0xFFFFFFF8) (v : Dword) (order : List Nat)
    (ho : ∀ i ∈ order, i < 8) (m : Memory) (a : Addr) :
    (writeBytesInOrder order m ea v).read a =
      if ea.toNat ≤ a.toNat ∧ a.toNat - ea.toNat ∈ order then some (byteOfDword v (a.toNat - ea.toNat))
      else m.read a := by
  induction order generalizing m with
  | nil => simp [writeBytesInOrder]
  | cons i order ih =>
    have hi := byteAddr_toNat h (ho i List.mem_cons_self)
    have step : writeBytesInOrder (i :: order) m ea v =
        writeBytesInOrder order (m.write (byteAddr ea i) (byteOfDword v i)) ea v := rfl
    rw [step, ih fun j hj => ho j (List.mem_cons_of_mem _ hj)]
    by_cases hmem : ea.toNat ≤ a.toNat ∧ a.toNat - ea.toNat ∈ order
    · rw [if_pos hmem, if_pos ⟨hmem.1, List.mem_cons_of_mem _ hmem.2⟩]
    · rw [if_neg hmem]
      by_cases hai : a = byteAddr ea i
      · subst hai
        have e : (byteAddr ea i).toNat - ea.toNat = i := by omega
        rw [Memory.read_write_same, e, if_pos ⟨by omega, List.mem_cons_self⟩]
      · have ne : ¬ (ea.toNat ≤ a.toNat ∧ a.toNat - ea.toNat = i) := fun ⟨h1, h2⟩ =>
          hai (BitVec.eq_of_toNat_eq (by omega))
        rw [Memory.read_write_ne _ _ hai, if_neg]
        rintro ⟨h1, h2⟩
        obtain h2 | h2 := List.mem_cons.1 h2
        · exact ne ⟨h1, h2⟩
        · exact hmem ⟨h1, h2⟩

/-- Reading an appended list: the first part, then the second. -/
theorem Memory.read_append (m n : Memory) (a : Addr) : Memory.read (m ++ n) a = (m.read a).or (Memory.read n a) := by
  induction m with
  | nil => simp [Memory.read]
  | cons c m ih =>
    obtain ⟨k, c⟩ := c
    simp only [List.cons_append, Memory.read]
    split <;> simp [ih]

/-- Reading a list kept by a test on addresses. -/
theorem Memory.read_filter (q : Nat → Bool) (m : Memory) (a : Addr) :
    Memory.read (m.filter (fun c => q c.1)) a = if q a.toNat then m.read a else none := by
  induction m with
  | nil => simp [Memory.read]
  | cons c m ih =>
    obtain ⟨k, c⟩ := c
    by_cases hk : q k
    · rw [List.filter_cons_of_pos (by simpa using hk)]
      simp only [Memory.read]
      by_cases e : k = a.toNat
      · subst e; simp [hk]
      · simp [e, ih]
    · rw [List.filter_cons_of_neg (by simpa using hk), ih]
      by_cases e : k = a.toNat
      · subst e; simp [hk]
      · simp [e, Memory.read]

/-- Reading a block of cells with consecutive addresses. -/
theorem Memory.read_block (base : Nat) (b : Nat → Byte) (a : Addr) (n : Nat) (s : Nat) :
    Memory.read ((List.range' s n).map (fun i => (base + i, b i))) a =
      if base + s ≤ a.toNat ∧ a.toNat < base + s + n then some (b (a.toNat - base)) else none := by
  induction n generalizing s with
  | zero => rw [if_neg (by omega)]; rfl
  | succ n ih =>
    rw [List.range'_succ, List.map_cons]
    simp only [Memory.read]
    by_cases e : base + s = a.toNat
    · rw [if_pos e, if_pos (by omega), ← e]; simp
    · rw [if_neg e, ih]
      by_cases h : base + (s + 1) ≤ a.toNat ∧ a.toNat < base + (s + 1) + n
      · rw [if_pos h, if_pos (by omega)]
      · rw [if_neg h, if_neg (by omega)]

/-- The indivisible write reads as the eight byte writes do. -/
theorem Memory.writeDword_read (m : Memory) (ea : Addr) (v : Dword) (a : Addr) :
    (m.writeDword ea v).read a =
      if ea.toNat ≤ a.toNat ∧ a.toNat < ea.toNat + 8 then some (byteOfDword v (a.toNat - ea.toNat)) else m.read a := by
  rw [Memory.writeDword, Memory.read_append, Memory.read_append, List.range_eq_range',
    Memory.read_filter (fun k => decide (k < ea.toNat)), Memory.read_filter (fun k => decide (ea.toNat + 8 ≤ k)),
    Memory.read_block]
  rcases Nat.lt_or_ge a.toNat ea.toNat with h | h
  · have h1 : ¬ ea.toNat + 8 ≤ a.toNat := by omega
    have h2 : ¬ ea.toNat ≤ a.toNat := by omega
    simp [h, h1, h2]
  · rcases Nat.lt_or_ge a.toNat (ea.toNat + 8) with h1 | h1
    · have h2 : ¬ a.toNat < ea.toNat := by omega
      simp [h, h1, h2]
    · have h2 : ¬ a.toNat < ea.toNat := by omega
      have h3 : ¬ a.toNat < ea.toNat + 8 := by omega
      simp [h1, h2, h3]

/-- What an allowed store does to memory, byte by byte, in either setting of `ATOMIC_ALIGNED_DW` (20_memory.md R29, R34). -/
theorem memWrite_read (p : LaunchParams) (m : Memory) {ea : Addr} (h : ea.toNat ≤ 0xFFFFFFF8) (v : Dword) (a : Addr) :
    (memWrite p m ea v).read a =
      if ea.toNat ≤ a.toNat ∧ a.toNat < ea.toNat + 8 then some (byteOfDword v (a.toNat - ea.toNat)) else m.read a := by
  unfold memWrite
  split
  · exact Memory.writeDword_read m ea v a
  · rw [writeBytesInOrder_read h v _ (by simp)]
    have : (ea.toNat ≤ a.toNat ∧ a.toNat - ea.toNat ∈ List.range 8) ↔ (ea.toNat ≤ a.toNat ∧ a.toNat < ea.toNat + 8) := by
      rw [List.mem_range]; omega
    simp only [this]

/-- Byte `k` of an allowed store reads as byte `k` of the value, most significant first (20_memory.md R29). -/
theorem memWrite_read_stored (p : LaunchParams) (m : Memory) {ea : Addr} (h : ea.toNat ≤ 0xFFFFFFF8) (v : Dword) {k : Nat}
    (hk : k < 8) : (memWrite p m ea v).read (ea + BitVec.ofNat 32 k) = some (v.extractLsb' (56 - 8 * k) 8) := by
  have e : (ea + BitVec.ofNat 32 k).toNat = ea.toNat + k := byteAddr_toNat h hk
  rw [memWrite_read p m h, if_pos (by omega), e, Nat.add_sub_cancel_left]
  rfl

/-- An address that is none of the eight reads as before. -/
theorem memWrite_read_other (p : LaunchParams) (m : Memory) {ea : Addr} (h : ea.toNat ≤ 0xFFFFFFF8) (v : Dword) {a : Addr}
    (ha : ∀ k < 8, a ≠ ea + BitVec.ofNat 32 k) : (memWrite p m ea v).read a = m.read a := by
  rw [memWrite_read p m h, if_neg]
  rintro ⟨h1, h2⟩
  have e : (ea + BitVec.ofNat 32 (a.toNat - ea.toNat)).toNat = ea.toNat + (a.toNat - ea.toNat) :=
    byteAddr_toNat h (by omega)
  exact ha (a.toNat - ea.toNat) (by omega) (BitVec.eq_of_toNat_eq (by omega))

/-- Byte writes keep the canonical form. -/
theorem writeBytesInOrder_wf {m : Memory} (hm : m.wf) (order : List Nat) (ea : Addr) (v : Dword) :
    (writeBytesInOrder order m ea v).wf := by
  induction order generalizing m with
  | nil => exact hm
  | cons i order ih => exact ih (m.write_wf hm _ _)

/-- The indivisible write keeps the canonical form. -/
theorem Memory.writeDword_wf {m : Memory} (hm : m.wf) {ea : Addr} (h : ea.toNat ≤ 0xFFFFFFF8) (v : Dword) :
    (m.writeDword ea v).wf := by
  have block : ∀ c ∈ (List.range 8).map (fun i => (ea.toNat + i, byteOfDword v i)),
      ea.toNat ≤ c.1 ∧ c.1 < ea.toNat + 8 := by
    intro c hc
    obtain ⟨i, hi, rfl⟩ := List.mem_map.1 hc
    have := List.mem_range.1 hi
    simp only; omega
  have low : ∀ c ∈ m.filter (fun c => decide (c.1 < ea.toNat)), c.1 < ea.toNat := fun c hc => by
    simpa using (List.mem_filter.1 hc).2
  have high : ∀ c ∈ m.filter (fun c => decide (ea.toNat + 8 ≤ c.1)), ea.toNat + 8 ≤ c.1 := fun c hc => by
    simpa using (List.mem_filter.1 hc).2
  refine ⟨?_, fun c hc => ?_⟩
  · refine List.pairwise_append.2 ⟨List.pairwise_append.2 ⟨hm.1.filter _, ?_, ?_⟩, hm.1.filter _, ?_⟩
    · rw [List.pairwise_map]
      exact List.pairwise_lt_range.imp fun h => by simpa using h
    · intro c hc d hd
      have := low c hc; have := block d hd; omega
    · intro c hc d hd
      have := high d hd
      obtain hc | hc := List.mem_append.1 hc
      · have := low c hc; omega
      · have := block c hc; omega
  · obtain hc | hc := List.mem_append.1 hc
    · obtain hc | hc := List.mem_append.1 hc
      · exact hm.2 c (List.mem_filter.1 hc).1
      · have := block c hc; omega
    · exact hm.2 c (List.mem_filter.1 hc).1

/-- An allowed store keeps the canonical form. -/
theorem memWrite_wf (p : LaunchParams) {m : Memory} (hm : m.wf) {ea : Addr} (h : ea.toNat ≤ 0xFFFFFFF8) (v : Dword) :
    (memWrite p m ea v).wf := by
  unfold memWrite
  split
  · exact Memory.writeDword_wf hm h v
  · exact writeBytesInOrder_wf hm _ ea v

/-- Placing an instruction keeps the canonical form. -/
theorem placeWord_wf {m : Memory} (hm : m.wf) (a : Addr) (w : Word) : (placeWord m a w).wf := by
  have fold (l : List Nat) {m : Memory} (hm : m.wf) : Memory.wf
      (l.foldl (fun m i => m.write (byteAddr a i) (w.extractLsb' (24 - 8 * i) 8)) m) := by
    induction l generalizing m with
    | nil => exact hm
    | cons i l ih => exact ih (m.write_wf hm _ _)
  exact fold _ hm

/-- Memory right after reset is canonical. -/
theorem reset_mem_wf : State.reset.mem.wf := by decide

end Sys2Proof.Machine
end

