-- ==== Sys2Proof/Laws/Params.lean ====
section
/-! SUPPORT. The launch parameters as plain data lose nothing: every predicate on 32-bit addresses is one that the lists can
say (00_scope.md R4; notes/assumptions/4.md). -/

namespace Sys2Proof.Laws

open Sys2Proof

/-- The addresses where a predicate holds, as numbers. -/
theorem mem_addresses (q : Addr → Bool) (a : Addr) :
    a.toNat ∈ (List.range (2 ^ 32)).filter (fun k => q (BitVec.ofNat 32 k)) ↔ q a = true := by
  have : BitVec.ofNat 32 a.toNat = a := by simp
  rw [List.mem_filter, List.mem_range, this]
  exact ⟨fun h => h.2, fun h => ⟨a.isLt, h⟩⟩

/-- Every predicate on addresses is the union of some list of regions: `Admitted` and `ProgramText` can be any. -/
theorem regions_represent (q : Addr → Bool) :
    ∃ l : List Region, ∀ a : Addr, l.any (·.contains a.toNat) = q a := by
  refine ⟨((List.range (2 ^ 32)).filter (fun k => q (BitVec.ofNat 32 k))).map (fun k => ⟨k, 1⟩), fun a => ?_⟩
  rw [Bool.eq_iff_iff, List.any_eq_true, ← mem_addresses q a]
  constructor
  · rintro ⟨r, hr, hc⟩
    obtain ⟨k, hk, rfl⟩ := List.mem_map.1 hr
    simp only [Region.contains, Bool.and_eq_true, decide_eq_true_eq] at hc
    have : k = a.toNat := by omega
    rwa [← this]
  · intro h
    exact ⟨⟨a.toNat, 1⟩, List.mem_map.2 ⟨_, h, rfl⟩, by simp [Region.contains]⟩

/-- Every predicate on addresses is the union of some list of alignment rules: `AlignFault` can be any. -/
theorem alignFault_represents (q : Addr → Bool) :
    ∃ l : List AlignRule, ∀ a : Addr, l.any (·.applies a.toNat) = q a := by
  obtain ⟨l, hl⟩ := regions_represent q
  refine ⟨l.map (fun r => ⟨r, 1, [0]⟩), fun a => ?_⟩
  rw [← hl a, List.any_map]
  congr 1
  funext r
  simp [AlignRule.applies, Nat.mod_one]

end Sys2Proof.Laws
end

