-- ==== Sys2Proof/Laws/PerInstr.lean ====
section
/-! SUPPORT. Statements made instruction by instruction. -/

namespace Sys2Proof.Laws.EncodeAccepted

open Sys2Proof

/-- The encoder's word of an instruction is one that the opcode map gives to an instruction of that mnemonic, and its bit 31
is 0 in the X forms. -/
def Statement (i : Instr) : Prop :=
  match i with
  | .stfd _ _ _ => lookup (encode i) = some .stfd
  | .stfdu _ _ _ => lookup (encode i) = some .stfdu
  | .stfdx _ _ _ => lookup (encode i) = some .stfdx ∧ fieldBit31 (encode i) = false
  | .stfdux _ _ _ => lookup (encode i) = some .stfdux ∧ fieldBit31 (encode i) = false

/-- An X-form word ends in a zero bit. -/
theorem fieldBit31_encodeX (op : BitVec 6) (fs ra rb : Reg) (xo : BitVec 10) :
    fieldBit31 (encodeX op fs ra rb xo) = false := by
  simp only [fieldBit31, encodeX, BitVec.getLsbD_append]
  simp

theorem stfd (fs ra : Reg) (d : BitVec 16) : Statement (.stfd fs ra d) := by
  show lookup _ = _
  rw [lookup_stfd, encode, encodeD_and_mask]
  rfl

theorem stfdu (fs ra : Reg) (d : BitVec 16) : Statement (.stfdu fs ra d) := by
  show lookup _ = _
  rw [lookup_stfdu, encode, encodeD_and_mask]
  rfl

theorem stfdx (fs ra rb : Reg) : Statement (.stfdx fs ra rb) := by
  refine ⟨?_, fieldBit31_encodeX _ _ _ _ _⟩
  rw [lookup_stfdx, encode, encodeX_and_mask]
  rfl

theorem stfdux (fs ra rb : Reg) : Statement (.stfdux fs ra rb) := by
  refine ⟨?_, fieldBit31_encodeX _ _ _ _ _⟩
  rw [lookup_stfdux, encode, encodeX_and_mask]
  rfl

end Sys2Proof.Laws.EncodeAccepted
end

