-- ==== Sys2Proof/Laws/State.lean ====
section
/-! SUPPORT. One lemma per field per state update, so that no later proof unfolds a record update. -/

namespace Sys2Proof.Machine

section setGpr
variable (s : State) (r : Reg) (w : Dword)
@[simp] theorem State.setGpr_x : (s.setGpr r w).x = s.x.set r.val w r.isLt := rfl
@[simp] theorem State.setGpr_f : (s.setGpr r w).f = s.f := rfl
@[simp] theorem State.setGpr_pc : (s.setGpr r w).pc = s.pc := rfl
@[simp] theorem State.setGpr_msr : (s.setGpr r w).msr = s.msr := rfl
@[simp] theorem State.setGpr_fpscr : (s.setGpr r w).fpscr = s.fpscr := rfl
@[simp] theorem State.setGpr_cr : (s.setGpr r w).cr = s.cr := rfl
@[simp] theorem State.setGpr_xer : (s.setGpr r w).xer = s.xer := rfl
@[simp] theorem State.setGpr_v : (s.setGpr r w).v = s.v := rfl
@[simp] theorem State.setGpr_rsv : (s.setGpr r w).rsv = s.rsv := rfl
@[simp] theorem State.setGpr_mem : (s.setGpr r w).mem = s.mem := rfl
@[simp] theorem State.setGpr_params : (s.setGpr r w).params = s.params := rfl

/-- A read after a write to the same register. -/
@[simp] theorem State.gpr_setGpr_same : (s.setGpr r w).gpr r = w := by simp [State.gpr, State.setGpr, Vector.get_eq_getElem]

/-- A write leaves every other register alone. -/
theorem State.gpr_setGpr_ne {q : Reg} (h : q ≠ r) : (s.setGpr r w).gpr q = s.gpr q := by
  have : r.val ≠ q.val := fun e => h (Fin.ext e.symm)
  simp [State.gpr, State.setGpr, Vector.get_eq_getElem, this]
end setGpr

section advancePc
variable (s : State)
@[simp] theorem State.advancePc_x : s.advancePc.x = s.x := rfl
@[simp] theorem State.advancePc_f : s.advancePc.f = s.f := rfl
@[simp] theorem State.advancePc_pc : s.advancePc.pc = s.pc + 4#32 := rfl
@[simp] theorem State.advancePc_msr : s.advancePc.msr = s.msr := rfl
@[simp] theorem State.advancePc_fpscr : s.advancePc.fpscr = s.fpscr := rfl
@[simp] theorem State.advancePc_cr : s.advancePc.cr = s.cr := rfl
@[simp] theorem State.advancePc_xer : s.advancePc.xer = s.xer := rfl
@[simp] theorem State.advancePc_v : s.advancePc.v = s.v := rfl
@[simp] theorem State.advancePc_rsv : s.advancePc.rsv = s.rsv := rfl
@[simp] theorem State.advancePc_mem : s.advancePc.mem = s.mem := rfl
@[simp] theorem State.advancePc_params : s.advancePc.params = s.params := rfl
end advancePc

section killReservations
variable (s : State) (ea : Addr) (n : Nat)
@[simp] theorem State.killReservations_x : (s.killReservations ea n).x = s.x := rfl
@[simp] theorem State.killReservations_f : (s.killReservations ea n).f = s.f := rfl
@[simp] theorem State.killReservations_pc : (s.killReservations ea n).pc = s.pc := rfl
@[simp] theorem State.killReservations_msr : (s.killReservations ea n).msr = s.msr := rfl
@[simp] theorem State.killReservations_fpscr : (s.killReservations ea n).fpscr = s.fpscr := rfl
@[simp] theorem State.killReservations_cr : (s.killReservations ea n).cr = s.cr := rfl
@[simp] theorem State.killReservations_xer : (s.killReservations ea n).xer = s.xer := rfl
@[simp] theorem State.killReservations_v : (s.killReservations ea n).v = s.v := rfl
@[simp] theorem State.killReservations_rsv :
    (s.killReservations ea n).rsv = s.rsv.filter (fun r => !r.overlaps s.params ea n) := rfl
@[simp] theorem State.killReservations_mem : (s.killReservations ea n).mem = s.mem := rfl
@[simp] theorem State.killReservations_params : (s.killReservations ea n).params = s.params := rfl

/-- A reservation survives exactly when its granule holds none of the bytes (20_memory.md R40). -/
theorem State.mem_killReservations {r : Reservation} :
    r ∈ (s.killReservations ea n).rsv ↔
      r ∈ s.rsv ∧ ∀ i < n, s.params.granuleOf (byteAddr ea i) ≠ s.params.granuleOf r.addr := by
  simp [Reservation.overlaps]
end killReservations

section storeDword
variable (s : State) (ea : Addr) (w : Dword)
@[simp] theorem State.storeDword_x : (s.storeDword ea w).x = s.x := rfl
@[simp] theorem State.storeDword_f : (s.storeDword ea w).f = s.f := rfl
@[simp] theorem State.storeDword_pc : (s.storeDword ea w).pc = s.pc := rfl
@[simp] theorem State.storeDword_msr : (s.storeDword ea w).msr = s.msr := rfl
@[simp] theorem State.storeDword_fpscr : (s.storeDword ea w).fpscr = s.fpscr := rfl
@[simp] theorem State.storeDword_cr : (s.storeDword ea w).cr = s.cr := rfl
@[simp] theorem State.storeDword_xer : (s.storeDword ea w).xer = s.xer := rfl
@[simp] theorem State.storeDword_v : (s.storeDword ea w).v = s.v := rfl
@[simp] theorem State.storeDword_rsv : (s.storeDword ea w).rsv = s.rsv := rfl
@[simp] theorem State.storeDword_mem : (s.storeDword ea w).mem = memWrite s.params s.mem ea w := rfl
@[simp] theorem State.storeDword_params : (s.storeDword ea w).params = s.params := rfl
end storeDword

section updateBase
variable (s : State) (ea : Addr) (ra : Reg) (u : Option Reg)
@[simp] theorem State.updateBase_none : s.updateBase none ea = s := rfl
@[simp] theorem State.updateBase_some : s.updateBase (some ra) ea = s.setGpr ra (ea.setWidth 64) := rfl
@[simp] theorem State.updateBase_f : (s.updateBase u ea).f = s.f := by cases u <;> rfl
@[simp] theorem State.updateBase_pc : (s.updateBase u ea).pc = s.pc := by cases u <;> rfl
@[simp] theorem State.updateBase_msr : (s.updateBase u ea).msr = s.msr := by cases u <;> rfl
@[simp] theorem State.updateBase_fpscr : (s.updateBase u ea).fpscr = s.fpscr := by cases u <;> rfl
@[simp] theorem State.updateBase_cr : (s.updateBase u ea).cr = s.cr := by cases u <;> rfl
@[simp] theorem State.updateBase_xer : (s.updateBase u ea).xer = s.xer := by cases u <;> rfl
@[simp] theorem State.updateBase_v : (s.updateBase u ea).v = s.v := by cases u <;> rfl
@[simp] theorem State.updateBase_rsv : (s.updateBase u ea).rsv = s.rsv := by cases u <;> rfl
@[simp] theorem State.updateBase_mem : (s.updateBase u ea).mem = s.mem := by cases u <;> rfl
@[simp] theorem State.updateBase_params : (s.updateBase u ea).params = s.params := by cases u <;> rfl
end updateBase

end Sys2Proof.Machine
end

