-- ==== Sys2Proof/Laws/Step.lean ====
section
/-! SUPPORT. What the shared store can do, said once: when nothing stops it, what it answers, and every field of the state it
leaves. -/

namespace Sys2Proof.Machine

/-- Every instruction is the shared store with its own operands (40_fp_store_double.md R62). -/
theorem exec_eq_storeDouble (i : Instr) (s : State) :
    exec i s = storeDouble (updatedRA i) (sourceFS i) (storeEA i s) s := by
  cases i <;> rfl

/-- Nothing stops the store exactly when none of the conditions of R62 holds. -/
theorem storeStop_eq_none_iff (u : Option Reg) (ea : Addr) (s : State) :
    storeStop u ea s = none ↔
      s.pc ≠ lastPc ∧ (isInvalidForm u = false ∨ s.params.invalidFormPolicy = .asSnapshot) ∧ s.msr.fp = true ∧
        StoreAllowed s.params ea := by
  have policy : (s.params.invalidFormPolicy == InvalidFormPolicy.refuse) = false ↔
      s.params.invalidFormPolicy = .asSnapshot := by cases s.params.invalidFormPolicy <;> decide
  have high : ¬ lastStoreEA < ea ↔ ea.toNat ≤ 0xFFFFFFF8 := by
    rw [BitVec.lt_def, Nat.not_lt]; rfl
  unfold storeStop
  constructor
  · intro h
    repeat' split at h
    all_goals simp only [reduceCtorEq] at h
    rename_i hpc hform hfp hea htext halign hadm
    refine ⟨hpc, ?_, by simpa using hfp, high.1 hea, ?_, by simpa using halign, ?_⟩
    · simp only [Bool.and_eq_true, not_and, Bool.not_eq_true] at hform
      cases hu : isInvalidForm u
      · exact .inl rfl
      · exact .inr (policy.1 (hform hu))
    · simpa [byteAddr] using htext
    · simpa [byteAddr] using hadm
  · rintro ⟨hpc, hform, hfp, hea, htext, halign, hadm⟩
    have h2 : (isInvalidForm u && s.params.invalidFormPolicy == .refuse) = false := by
      obtain h | h := hform
      · rw [h]; rfl
      · rw [h]; exact Bool.and_false _
    have h5 : ((List.range 8).any fun i => s.params.inProgramText (byteAddr ea i)) = false := by
      simpa [byteAddr] using htext
    have h7 : ((List.range 8).all fun i => s.params.isAdmitted (byteAddr ea i)) = true := by
      simpa [byteAddr] using hadm
    simp [hpc, h2, hfp, high.2 hea, h5, halign, h7]

/-- The shared store answers a next state exactly when nothing stops it, and then `storeEffect`. -/
theorem storeDouble_eq_next_iff {u : Option Reg} {fs : Reg} {ea : Addr} {s t : State} :
    storeDouble u fs ea s = .next t ↔ storeStop u ea s = none ∧ t = storeEffect u fs ea s := by
  unfold storeDouble
  split
  · rename_i stop h
    cases stop <;> simp [Stop.outcome, takeException, h]
  · rename_i h
    rw [Host.Outcome.next.injEq]
    exact ⟨fun e => ⟨h, e.symm⟩, fun e => e.2.symm⟩

/-- The check of the invalid form is the one of `Instr.wellFormed` (30_encoding.md R55). -/
theorem isInvalidForm_updatedRA (i : Instr) : isInvalidForm (updatedRA i) = !i.wellFormed := by
  cases i <;> simp [isInvalidForm, updatedRA, Instr.wellFormed, bne]

section effect
variable (u : Option Reg) (fs : Reg) (ea : Addr) (s : State)
@[simp] theorem storeEffect_f : (storeEffect u fs ea s).f = s.f := by simp [storeEffect]
@[simp] theorem storeEffect_pc : (storeEffect u fs ea s).pc = s.pc + 4#32 := by simp [storeEffect]
@[simp] theorem storeEffect_msr : (storeEffect u fs ea s).msr = s.msr := by simp [storeEffect]
@[simp] theorem storeEffect_fpscr : (storeEffect u fs ea s).fpscr = s.fpscr := by simp [storeEffect]
@[simp] theorem storeEffect_cr : (storeEffect u fs ea s).cr = s.cr := by simp [storeEffect]
@[simp] theorem storeEffect_xer : (storeEffect u fs ea s).xer = s.xer := by simp [storeEffect]
@[simp] theorem storeEffect_v : (storeEffect u fs ea s).v = s.v := by simp [storeEffect]
@[simp] theorem storeEffect_params : (storeEffect u fs ea s).params = s.params := by simp [storeEffect]
@[simp] theorem storeEffect_rsv :
    (storeEffect u fs ea s).rsv = s.rsv.filter (fun r => !r.overlaps s.params ea 8) := by simp [storeEffect]
@[simp] theorem storeEffect_mem : (storeEffect u fs ea s).mem = memWrite s.params s.mem ea (s.fpr fs) := by
  simp [storeEffect]
@[simp] theorem storeEffect_x_none : (storeEffect none fs ea s).x = s.x := by simp [storeEffect]
@[simp] theorem storeEffect_x_some (ra : Reg) :
    (storeEffect (some ra) fs ea s).x = s.x.set ra.val (ea.setWidth 64) ra.isLt := by simp [storeEffect]

/-- The register an update form writes (40_fp_store_double.md R64). -/
@[simp] theorem storeEffect_x_get_same (ra : Reg) : (storeEffect (some ra) fs ea s).x.get ra = ea.setWidth 64 := by
  simp [Vector.get_eq_getElem]

/-- Every other general register is kept. -/
theorem storeEffect_x_get_ne {r : Reg} (h : u ≠ some r) : (storeEffect u fs ea s).x.get r = s.x.get r := by
  cases u with
  | none => rw [storeEffect_x_none]
  | some ra =>
    have : ra.val ≠ r.val := fun e => h (by rw [Fin.ext e])
    rw [storeEffect_x_some]
    simp [Vector.get_eq_getElem, this]
end effect

/-- A step answers a next state exactly when the fetch gives an instruction and that instruction does. -/
theorem step_eq_next_iff {s t : State} : step s = .next t ↔ ∃ i, fetchInstr s = .ok i ∧ exec i s = .next t := by
  unfold step
  split
  · rename_i i h
    simp [h]
  · rename_i stop h
    cases stop <;> simp [Stop.outcome, takeException, h]

/-- A fetch that gives an instruction is aligned. -/
theorem aligned_of_fetchInstr {s : State} {i : Instr} (h : fetchInstr s = .ok i) : s.pc.toNat % 4 = 0 := by
  unfold fetchInstr at h
  split at h
  · simp at h
  · omega

/-- Below the last program counter, `pc + 4` does not wrap. -/
theorem pc_add_four_toNat {s : State} (hal : s.pc.toNat % 4 = 0) (hpc : s.pc ≠ lastPc) :
    (s.pc + 4#32).toNat = s.pc.toNat + 4 := by
  have : s.pc.toNat ≠ 0xFFFFFFFC := fun e => hpc (BitVec.eq_of_toNat_eq e)
  have := s.pc.isLt
  rw [BitVec.toNat_add, BitVec.toNat_ofNat]
  omega

/-- A run of `k + 1` steps is a step and then a run of `k`. -/
theorem run_succ_eq_next_iff {k : Nat} {s t : State} :
    core.run (k + 1) s = .next t ↔ ∃ u, step s = .next u ∧ core.run k u = .next t := by
  have e : core.step s = step s := rfl
  cases h : step s with
  | next u => simp [Host.Core.run, e, h]
  | fault r => simp [Host.Core.run, e, h]
  | refused r => simp [Host.Core.run, e, h]

end Sys2Proof.Machine
end

