-- ==== Sys2Proof/Tests/Slice0.lean ====
section
/-! SUPPORT. The model's own tests: the vectors of 95_test_vectors.md by their ids, the ill-formed terms, and for every
statement with hypotheses a witness that meets them. -/

namespace Sys2Proof.Tests

open Sys2Proof Sys2Proof.Machine

/-! ### Helpers -/

/-- A register file that is zero but for the registers listed. -/
def regFile (l : List (Nat × Dword)) : Vector Dword 32 :=
  l.foldl (fun v p => v.setIfInBounds p.1 p.2) (Vector.replicate 32 0#64)

/-- The start state of 95_test_vectors.md's conventions with one instruction word loaded at `0x100`. -/
def start (w : Word) (x f : List (Nat × Dword)) : State :=
  ({ State.reset with x := regFile x, f := regFile f }).withFetchWord 32 w.toNat

/-- The outcome is a next state of which `p` holds. -/
def nextWith (o : Host.Outcome State Fault Refusal) (p : State → Bool) : Bool :=
  match o with
  | .next t => p t
  | .fault _ => false
  | .refused _ => false

/-- The outcome is this stop. -/
def stopsAs (o : Host.Outcome State Fault Refusal) (stop : Stop) : Bool :=
  match o with
  | .next _ => false
  | .fault f => stop == .raise f
  | .refused r => stop == .refuse r

/-- `n` bytes from `a`, as they stand in memory. -/
def bytesAt (m : Memory) (a : Addr) (n : Nat) : List (Option Byte) := (List.range n).map (fun i => m.read (byteAddr a i))

theorem eq_next_of_nextWith {o : Host.Outcome State Fault Refusal} {p : State → Bool} (h : nextWith o p = true) :
    ∃ t, o = .next t ∧ p t = true := by
  cases o with
  | next t => exact ⟨t, rfl, h⟩
  | fault _ => cases h
  | refused _ => cases h

theorem eq_fault_of_stopsAs {o : Host.Outcome State Fault Refusal} {e : Fault} (h : stopsAs o (.raise e) = true) :
    o = .fault e := by
  cases o with
  | next _ => cases h
  | fault f => simp only [stopsAs, beq_iff_eq, Stop.raise.injEq] at h; rw [h]
  | refused r => simp [stopsAs] at h

theorem eq_refused_of_stopsAs {o : Host.Outcome State Fault Refusal} {e : Refusal} (h : stopsAs o (.refuse e) = true) :
    o = .refused e := by
  cases o with
  | next _ => cases h
  | fault f => simp [stopsAs] at h
  | refused r => simp only [stopsAs, beq_iff_eq, Stop.refuse.injEq] at h; rw [h]

/-! ### Well-formedness: the check refuses each ill-formed term (30_encoding.md R55) -/

theorem test_wellFormed_refuses_stfdu_RA0 : (Instr.stfdu 3 0 8#16).wellFormed = false := by decide
theorem test_wellFormed_refuses_stfdux_RA0 : (Instr.stfdux 1 0 7).wellFormed = false := by decide
theorem test_wellFormed_admits_the_others :
    (Instr.stfd 0 0 0#16).wellFormed && (Instr.stfdx 0 0 0).wellFormed && (Instr.stfdu 0 31 0#16).wellFormed
      && (Instr.stfdux 0 1 0).wellFormed = true := by decide

/-! ### Decoding: words written out from the encodings (95_test_vectors.md 2.1) -/

/-- The fields of K11 spelled out bit by bit in 95_test_vectors.md: `OPCD`, `FS`, `RA`, `RB`, `XO`, bit 31. -/
theorem test_decode_K11_bit_by_bit :
    decodeWord .refuse (0b011111#6 ++ 0b00011#5 ++ 0b00011#5 ++ 0b00100#5 ++ 0b1011010111#10 ++ 0b0#1)
      = .instr (.stfdx 3 3 4) := by decide
/-- K15 from R46 and R53: `OPCD` 31, `FS` 4, `RA` 5, `RB` 6, `XO` 759 = 1011110111, bit 31 = 0. -/
theorem test_decode_K15_bit_by_bit :
    decodeWord .refuse (0b011111#6 ++ 0b00100#5 ++ 0b00101#5 ++ 0b00110#5 ++ 0b1011110111#10 ++ 0b0#1)
      = .instr (.stfdux 4 5 6) := by decide
/-- K2 from R45 and R50: `OPCD` 54 = 110110, `FS` 31, `RA` 1, `d` = -8. -/
theorem test_decode_K2_bit_by_bit :
    decodeWord .refuse (0b110110#6 ++ 0b11111#5 ++ 0b00001#5 ++ 0b1111111111111000#16)
      = .instr (.stfd 31 1 0xFFF8#16) := by decide
/-- K8 from R45 and R51: `OPCD` 55 = 110111, `FS` 2, `RA` 3, `d` = 16. -/
theorem test_decode_K8_bit_by_bit :
    decodeWord .refuse (0b110111#6 ++ 0b00010#5 ++ 0b00011#5 ++ 0b0000000000010000#16)
      = .instr (.stfdu 2 3 16#16) := by decide
theorem test_decode_stfd_K1_to_K6 :
    [0xD8230008, 0xDBE1FFF8, 0xD8000000, 0xD8407FFF, 0xD85F8000, 0xDBFFFFFF].map (decodeTableWord 32) =
      [some (.stfd 1 3 8#16), some (.stfd 31 1 0xFFF8#16), some (.stfd 0 0 0#16), some (.stfd 2 0 0x7FFF#16),
       some (.stfd 2 31 0x8000#16), some (.stfd 31 31 0xFFFF#16)] := by decide
theorem test_decode_stfdu_K7_to_K10_K28 :
    [0xDC21FFF8, 0xDC430010, 0xDFFFFFFF, 0xDC600008, 0xDC000000].map (decodeTableWord 32) =
      [some (.stfdu 1 1 0xFFF8#16), some (.stfdu 2 3 16#16), some (.stfdu 31 31 0xFFFF#16), some (.stfdu 3 0 8#16),
       some (.stfdu 0 0 0#16)] := by decide
theorem test_decode_stfdx_K11_to_K14_K26 :
    [0x7C6325AE, 0x7C802DAE, 0x7FFFFDAE, 0x7C2005AE, 0x7C0005AE].map (decodeTableWord 32) =
      [some (.stfdx 3 3 4), some (.stfdx 4 0 5), some (.stfdx 31 31 31), some (.stfdx 1 0 0), some (.stfdx 0 0 0)] := by
  decide
theorem test_decode_stfdux_K15_to_K17_K27 :
    [0x7C8535EE, 0x7C273DEE, 0x7C203DEE, 0x7C0005EE].map (decodeTableWord 32) =
      [some (.stfdux 4 5 6), some (.stfdux 1 7 7), some (.stfdux 1 0 7), some (.stfdux 0 0 0)] := by decide
theorem test_decode_bit31_K18_K19 :
    [0x7C6325AF#32, 0x7C6325EF#32].map (decodeWord .refuse) = [.reservedBit31, .reservedBit31] ∧
    [0x7C6325AF#32, 0x7C6325EF#32].map (decodeWord .ignore) = [.instr (.stfdx 3 3 4), .instr (.stfdux 3 3 4)] := by decide
theorem test_decode_not_in_scope_K20_to_K25 :
    [0x7C6325AC#32, 0x7C6324AE#32, 0xD4230008#32, 0xE0230008#32, 0x00000000#32, 0xFFFFFFFF#32].map (decodeWord .ignore) =
      List.replicate 6 .notInScope := by decide

/-! ### Assembler syntax (30_encoding.md R58, R59) -/

theorem test_assembly_text :
    lineText (disassemble (.stfd 5 0 0xFFFC#16)) = "stfd f5, -4(0)" ∧
    lineText (disassemble (.stfdx 4 0 5)) = "stfdx f4, 0, r5" ∧
    lineText (disassemble (.stfdu 3 0 8#16)) = "stfdu f3, 8(r0)" := by decide

/-! ### One step of each instruction (95_test_vectors.md 2.3 to 2.6) -/

/-- E3: `RA` field 0 is the literal 0; `r0` is neither read nor written. -/
theorem test_stfd_E3 :
    nextWith (step (start 0xD8000000#32 [(0, 0xDEADBEEFDEADBEEF#64)] [(0, 0x0123456789ABCDEF#64)])) (fun t =>
      bytesAt t.mem 0#32 8 == [0x01#8, 0x23#8, 0x45#8, 0x67#8, 0x89#8, 0xAB#8, 0xCD#8, 0xEF#8].map some
        && t.gpr 0 == 0xDEADBEEFDEADBEEF#64 && t.pc == 0x104#32) = true := by decide
/-- E9: an unaligned store across an 8-byte boundary; the bytes beside it hold nothing. -/
theorem test_stfd_E9 :
    nextWith (step (start 0xD8640003#32 [(4, 0x3000#64)] [(3, 0x0102030405060708#64)])) (fun t =>
      bytesAt t.mem 0x3002#32 10 == [none, some 0x01#8, some 0x02#8, some 0x03#8, some 0x04#8, some 0x05#8, some 0x06#8,
        some 0x07#8, some 0x08#8, none] && t.pc == 0x104#32) = true := by decide
/-- E10: a negative displacement and the update. -/
theorem test_stfdu_E10 :
    nextWith (step (start 0xDC21FFF8#32 [(1, 0x2000#64)] [(1, 0x400921FB54442D18#64)])) (fun t =>
      bytesAt t.mem 0x1FF8#32 8 == [0x40#8, 0x09#8, 0x21#8, 0xFB#8, 0x54#8, 0x44#8, 0x2D#8, 0x18#8].map some
        && t.gpr 1 == 0x1FF8#64 && t.pc == 0x104#32) = true := by decide
/-- E12: `d = 0` still rewrites `RA` and clears its upper half. -/
theorem test_stfdu_E12 :
    nextWith (step (start 0xDC230000#32 [(3, 0xFFFFFFFF00004000#64)] [(1, 0xFFF0000000000000#64)])) (fun t =>
      memRead t.mem 0x4000#32 8 == some 0xFFF0000000000000#64 && t.gpr 3 == 0x4000#64) = true := by decide
/-- E18: a negative 64-bit index. -/
theorem test_stfdx_E18 :
    nextWith (step (start 0x7C6325AE#32 [(3, 0x1000#64), (4, 0xFFFFFFFFFFFFFFF8#64)] [(3, 0x3FF0000000000000#64)])) (fun t =>
      memRead t.mem 0xFF8#32 8 == some 0x3FF0000000000000#64 && t.gpr 3 == 0x1000#64 && t.pc == 0x104#32) = true := by decide
/-- E19: `RA` field 0 is the literal 0, `RB` field 0 is `r0`. -/
theorem test_stfdx_E19 :
    nextWith (step (start 0x7C2005AE#32 [(0, 0x7000#64)] [(1, 0x3FF0000000000000#64)])) (fun t =>
      memRead t.mem 0x7000#32 8 == some 0x3FF0000000000000#64 && t.pc == 0x104#32) = true := by decide
/-- E20: a signalling NaN is stored as it is. -/
theorem test_stfdux_E20 :
    nextWith (step (start 0x7C8535EE#32 [(5, 0x3000#64), (6, 0xFFFFFFFFFFFFFFF0#64)] [(4, 0x7FF0000000000001#64)])) (fun t =>
      bytesAt t.mem 0x2FF0#32 8 == [0x7F#8, 0xF0#8, 0x00#8, 0x00#8, 0x00#8, 0x00#8, 0x00#8, 0x01#8].map some
        && t.gpr 5 == 0x2FF0#64 && t.gpr 6 == 0xFFFFFFFFFFFFFFF0#64) = true := by decide
/-- E21: `RA = RB`: both reads see the old value. -/
theorem test_stfdux_E21 :
    nextWith (step (start 0x7C273DEE#32 [(7, 0x0000000100000400#64)] [(1, 0x4000000000000000#64)])) (fun t =>
      memRead t.mem 0x800#32 8 == some 0x4000000000000000#64 && t.gpr 7 == 0x800#64) = true := by decide

/-! ### Witnesses

The states of E1 (`stfd`), E10 (`stfdu`), E15 (`stfdx`) and E20 (`stfdux`), and the stops of 95_test_vectors.md 2.8. -/

def iE1 : Instr := .stfd 1 3 8#16
def iE10 : Instr := .stfdu 1 1 0xFFF8#16
def iE15 : Instr := .stfdx 3 3 4
def iE20 : Instr := .stfdux 4 5 6
def sE1 : State := start 0xD8230008#32 [(3, 0x1000#64)] [(1, 0x3FF0000000000000#64)]
def sE10 : State := start 0xDC21FFF8#32 [(1, 0x2000#64)] [(1, 0x400921FB54442D18#64)]
def sE15 : State := start 0x7C6325AE#32 [(3, 0x1000#64), (4, 0x18#64)] [(3, 0xC004000000000000#64)]
def sE20 : State := start 0x7C8535EE#32 [(5, 0x3000#64), (6, 0xFFFFFFFFFFFFFFF0#64)] [(4, 0x7FF0000000000001#64)]
/-- X1: MSR[FP] = 0. -/
def sX1 : State := { sE1 with msr := ⟨false⟩ }
/-- X5: only `0x1000` to `0x100B` is admitted. -/
def sX5 : State := { sE1 with params := { sE1.params with admitted := [⟨0x1000, 0xC⟩] } }
/-- X4: `AlignFault(EA) = (EA mod 8 != 0)`, and `EA = 0x3003`. -/
def sX4 : State :=
  { start 0xD8640003#32 [(4, 0x3000#64)] [(3, 1#64)] with
    params := { State.reset.params with alignFault := [⟨⟨0, 2 ^ 32⟩, 8, [1, 2, 3, 4, 5, 6, 7]⟩] } }
/-- X9 and X9b: E15's state with the word whose bit 31 is 1, under either policy. -/
def sX9 (p : Bit31Policy) : State :=
  let s := start 0x7C6325AF#32 [(3, 0x1000#64), (4, 0x18#64)] [(3, 0xC004000000000000#64)]
  { s with params := { s.params with bit31Policy := p } }
/-- X13: a word that is not in scope. -/
def sX13 : State := start 0xD4230008#32 [] []
/-- A state at the last program counter. -/
def sX8 : State := { State.reset with pc := 0xFFFFFFFC#32, x := regFile [(3, 0x1000#64)] }.withFetchWord 32 0xD8230008

theorem witness_next_each_instruction :
    (∃ t, exec iE1 sE1 = .next t) ∧ (∃ t, exec iE10 sE10 = .next t) ∧ (∃ t, exec iE15 sE15 = .next t) ∧
      (∃ t, exec iE20 sE20 = .next t) := by
  refine ⟨?_, ?_, ?_, ?_⟩ <;>
    exact (eq_next_of_nextWith (p := fun _ => true) (by decide)).imp fun _ h => h.1

theorem witness_StfdCompletes : sE1.pc ≠ 0xFFFFFFFC#32 ∧ sE1.msr.fp = true ∧ StoreAllowed sE1.params 0x1008#32 := by decide
/-- E6: the highest effective address that is not refused, and `RA = 0`. -/
theorem witness_StfdCompletes_boundary :
    let s := start 0xD8A0FFF8#32 [] [(5, 0x1122334455667788#64)]
    s.pc ≠ 0xFFFFFFFC#32 ∧ s.msr.fp = true ∧ (0#64 + (0xFFF8#16).signExtend 64).extractLsb' 0 32 = 0xFFFFFFF8#32 ∧
      StoreAllowed s.params 0xFFFFFFF8#32 := by decide
theorem witness_StfduCompletes :
    sE10.pc ≠ 0xFFFFFFFC#32 ∧ ((1 : Reg) ≠ 0 ∨ sE10.params.invalidFormPolicy = .asSnapshot) ∧ sE10.msr.fp = true ∧
      StoreAllowed sE10.params 0x1FF8#32 := by decide
theorem witness_StfdxCompletes :
    sE15.pc ≠ 0xFFFFFFFC#32 ∧ sE15.msr.fp = true ∧ StoreAllowed sE15.params 0x1018#32 := by decide
theorem witness_StfduxCompletes :
    sE20.pc ≠ 0xFFFFFFFC#32 ∧ ((5 : Reg) ≠ 0 ∨ sE20.params.invalidFormPolicy = .asSnapshot) ∧ sE20.msr.fp = true ∧
      StoreAllowed sE20.params 0x2FF0#32 := by decide

/-- E14b, E22b: the invalid forms complete under `as_snapshot`, and stop under `refuse` (E14, E22). -/
def sE14 (p : InvalidFormPolicy) : State :=
  let s := start 0xDC600008#32 [(0, 0x5000#64), (7, 0x200#64)] [(3, 0x4059000000000000#64)]
  { s with params := { s.params with invalidFormPolicy := p } }
theorem witness_InvalidFormsFollowThePolicy :
    ((sE14 .refuse).params.invalidFormPolicy = .refuse ∧ (sE14 .refuse).pc ≠ 0xFFFFFFFC#32) ∧
    ((sE14 .asSnapshot).params.invalidFormPolicy = .asSnapshot ∧ (sE14 .asSnapshot).pc ≠ 0xFFFFFFFC#32 ∧
      (sE14 .asSnapshot).msr.fp = true ∧
      StoreAllowed (sE14 .asSnapshot).params (((sE14 .asSnapshot).x.get 0 + (8#16).signExtend 64).extractLsb' 0 32) ∧
      StoreAllowed (sE14 .asSnapshot).params
        (((sE14 .asSnapshot).x.get 0 + (sE14 .asSnapshot).x.get 7).extractLsb' 0 32)) := by decide

theorem witness_CompletesExactlyWhenAllowed : Completes iE1 sE1 ∧ ¬ Completes iE1 sX1 := by decide

theorem witness_Bit31IsRefusedOrIgnored :
    0x7C6325AF#32 &&& 0xFC0007FF#32 = 0x7C0005AF#32 ∧ 0x7C6325EF#32 &&& 0xFC0007FF#32 = 0x7C0005EF#32 ∧
    (∀ p, (p = .refuse ∨ p = .ignore) → (sX9 p).pc.toNat % 4 = 0 ∧ fetchWord (sX9 p) = some 0x7C6325AF#32 ∧
      (sX9 p).params.bit31Policy = p ∧ (sX9 p).pc ≠ 0xFFFFFFFC#32) ∧
    (∃ t, step (sX9 .ignore) = .next t) := by
  refine ⟨by decide, by decide, ?_, ?_⟩
  · rintro p (rfl | rfl) <;> decide
  · exact (eq_next_of_nextWith (p := fun t => memRead t.mem 0x1018#32 8 == some 0xC004000000000000#64)
      (by decide)).imp fun _ h => h.1
theorem witness_EveryOtherWordIsNotInScope :
    sX13.pc.toNat % 4 = 0 ∧ fetchWord sX13 = some 0xD4230008#32 ∧
      decodeWord sX13.params.bit31Policy 0xD4230008#32 = .notInScope := by decide
theorem witness_AssemblyEncodesByTheFormula :
    ¬ (-32768 ≤ (32768 : Int) ∧ (32768 : Int) ≤ 32767) ∧ ¬ (-32768 ≤ (-32769 : Int) ∧ (-32769 : Int) ≤ 32767) ∧
      (-32768 ≤ (-32768 : Int) ∧ (-32768 : Int) ≤ 32767) ∧ (-32768 ≤ (32767 : Int) ∧ (32767 : Int) ≤ 32767) := by decide
theorem witness_StepRunsTheDecodedInstruction :
    (sE1.pc.toNat % 4 = 0 ∧ sE1.mem.read sE1.pc = some 0xD8#8 ∧ sE1.mem.read (sE1.pc + 1#32) = some 0x23#8 ∧
      sE1.mem.read (sE1.pc + 2#32) = some 0x00#8 ∧ sE1.mem.read (sE1.pc + 3#32) = some 0x08#8 ∧
      decodeWord sE1.params.bit31Policy (0xD8#8 ++ 0x23#8 ++ 0x00#8 ++ 0x08#8) = .instr iE1) ∧
    { sE1 with pc := 0x102#32 }.pc.toNat % 4 ≠ 0 := by decide
theorem witness_FetchOfAnUnwrittenByteIsRefused :
    State.reset.pc.toNat % 4 = 0 ∧ State.reset.mem.read (State.reset.pc + BitVec.ofNat 32 0) = none ∧
      State.reset.mem.read (State.reset.pc + BitVec.ofNat 32 3) = none := by decide
theorem witness_ALoadedInstructionIsTheNextToRun : State.reset.pc.toNat % 4 = 0 ∧ sX8.pc.toNat % 4 = 0 := by decide
/-- With other registers beside: a next state, a fault and a refusal. -/
theorem witness_each_kind_of_outcome :
    (∃ t, exec iE1 sE1 = .next t) ∧ exec iE1 sX1 = .fault (.floatingPointUnavailable 0x100#32) ∧
      exec iE1 sX8 = .refused .pcWrap :=
  ⟨witness_next_each_instruction.1, eq_fault_of_stopsAs (by decide), eq_refused_of_stopsAs (by decide)⟩
theorem witness_UpperRegisterHalvesHaveNoEffect :
    (∀ r : Reg, ((regFile [(3, 0xABCDEF0100001000#64)]).get r).extractLsb' 0 32 = (sE1.x.get r).extractLsb' 0 32) ∧
      sE1.x ≠ regFile [(3, 0xABCDEF0100001000#64)] := by decide
theorem witness_DisplacementIsSigned :
    (extsD 0x8000#16).getLsbD 16 = true ∧ (extsD 0x8000#16).getLsbD 63 = true ∧ (extsD 0x7FFF#16).getLsbD 63 = false := by
  decide
/-- The forms that do not read `r0`, with a next state and with each kind of stop. -/
theorem witness_RA0ReadsTheLiteralZero :
    (3 : Reg) ≠ 0 ∧ (5 : Reg) ≠ 0 ∧ (∃ t, exec (.stfd 1 0 8#16) sE1 = .next t) ∧ (∃ t, exec (.stfdx 1 0 3) sE1 = .next t) ∧
      exec (.stfd 1 0 8#16) sX1 = .fault (.floatingPointUnavailable 0x100#32) ∧
      exec (.stfd 1 0 8#16) sX8 = .refused .pcWrap := by
  refine ⟨by decide, by decide, ?_, ?_, eq_fault_of_stopsAs (by decide), eq_refused_of_stopsAs (by decide)⟩ <;>
    exact (eq_next_of_nextWith (p := fun _ => true) (by decide)).imp fun _ h => h.1
theorem witness_ReadsOfAnyWidthSeeTheStore :
    (0 + 8 ≤ 8 ∧ 7 + 1 ≤ 8) ∧ ∃ t, exec iE1 sE1 = .next t ∧
      ((∃ u, exec (.stfd 2 3 12#16) t = .next u) ∧
        ∀ l < 8, storeEA iE1 sE1 + BitVec.ofNat 32 0 ≠ storeEA (.stfd 2 3 12#16) t + BitVec.ofNat 32 l) := by
  refine ⟨by decide, ?_⟩
  obtain ⟨t, h, ht⟩ := eq_next_of_nextWith (o := exec iE1 sE1)
    (p := fun t => nextWith (exec (.stfd 2 3 12#16) t) (fun _ => true)
      && (List.range 8).all (fun l => storeEA iE1 sE1 + BitVec.ofNat 32 0 != storeEA (.stfd 2 3 12#16) t + BitVec.ofNat 32 l))
    (by decide)
  simp only [Bool.and_eq_true] at ht
  exact ⟨t, h, (eq_next_of_nextWith ht.1).imp fun _ h => h.1, by simpa using ht.2⟩
theorem witness_ReadsComeBeforeTheWrite :
    (∃ t, exec (.stfdux 1 5 5) sE20 = .next t) ∧ (5 : Reg) ≠ 0 ∧ (∃ t, exec (.stfdx 1 5 5) sE20 = .next t) ∧
      (∃ t, exec (.stfdu 5 5 8#16) sE20 = .next t) := by
  refine ⟨?_, by decide, ?_, ?_⟩ <;>
    exact (eq_next_of_nextWith (p := fun _ => true) (by decide)).imp fun _ h => h.1
/-- V1 and V3: a reservation that E1 clears and one it keeps. -/
theorem witness_AStoreClearsTheReservationsItTouches :
    nextWith (exec iE1 { sE1 with rsv := [⟨0, 0x100C#32⟩, ⟨1, 0x1010#32⟩] }) (fun t => t.rsv == [⟨1, 0x1010#32⟩]) = true := by
  decide
theorem witness_AtomicAndByteWiseStoresAgree :
    sE1.mem.wf ∧ (∃ t, exec iE1 sE1 = .next t) ∧ exec iE1 sX1 = .fault (.floatingPointUnavailable 0x100#32) ∧ sX1.mem.wf ∧
      sX8.mem.wf ∧ exec iE1 sX8 = .refused .pcWrap :=
  ⟨by decide, witness_each_kind_of_outcome.1, witness_each_kind_of_outcome.2.1, by decide, by decide,
    witness_each_kind_of_outcome.2.2⟩
theorem witness_TheOrderOfTheByteWritesDoesNotMatter :
    Memory.wf [(3, 0xFF#8)] ∧ (0xFFFFFFF8#32 : Addr).toNat ≤ 0xFFFFFFF8 ∧
      [7, 6, 5, 4, 3, 2, 1, 0].Perm (List.range 8) := by decide
/-- Every stop of R62 is reached: X8, X3, X1, X11, X7c, X4, X5; and X9 for the reserved word. -/
theorem witness_TheFirstConditionInOrderDecides :
    exec iE1 sX8 = .refused .pcWrap ∧ exec (.stfdu 3 0 8#16) sX1 = .refused .invalidFormRA0 ∧
    exec iE1 sX1 = .fault (.floatingPointUnavailable 0x100#32) ∧
    exec (.stfd 5 0 0xFFFC#16) sE1 = .refused .storeWrapsAddressSpace ∧
    exec (.stfd 1 0 0xF9#16) sE1 = .refused .storeToProgramText ∧
    exec (.stfd 3 4 3#16) sX4 = .fault (.alignment 0x3003#32) ∧
    exec iE1 sX5 = .fault (.memoryFault 0x1008#32) ∧
    ((sX9 .refuse).pc.toNat % 4 = 0 ∧ fetchWord (sX9 .refuse) = some 0x7C6325AF#32 ∧
      decodeWord (sX9 .refuse).params.bit31Policy 0x7C6325AF#32 = .reservedBit31) :=
  ⟨eq_refused_of_stopsAs (by decide), eq_refused_of_stopsAs (by decide), eq_fault_of_stopsAs (by decide),
    eq_refused_of_stopsAs (by decide), eq_refused_of_stopsAs (by decide), eq_fault_of_stopsAs (by decide),
    eq_fault_of_stopsAs (by decide), by decide⟩
theorem witness_DisabledFloatingPointIsReported :
    sX1.msr.fp = false ∧ iE1.wellFormed = true ∧ sX1.pc ≠ 0xFFFFFFFC#32 := by decide
theorem witness_TheLastPcIsRefused :
    fetchInstr sX8 = .ok iE1 ∧ sX8.pc = 0xFFFFFFFC#32 := ⟨by rfl, by decide⟩
/-- E9's store at `0x3003`, a clean one; X4's, where the rule raises the exception. -/
theorem witness_UnalignedStoresAreTolerated :
    let s := { sX4 with params := { sX4.params with alignFault := [] } }
    (s.params.alignFault = [] ∧ s.pc ≠ 0xFFFFFFFC#32 ∧ FormAllowed s.params (.stfd 3 4 3#16) ∧ s.msr.fp = true ∧
      storeEA (.stfd 3 4 3#16) s = 0x3003#32 ∧ (storeEA (.stfd 3 4 3#16) s).toNat ≤ 0xFFFFFFF8 ∧
      ∀ k < 8, s.params.inProgramText (storeEA (.stfd 3 4 3#16) s + BitVec.ofNat 32 k) = false ∧
        s.params.isAdmitted (storeEA (.stfd 3 4 3#16) s + BitVec.ofNat 32 k) = true) ∧
    exec (.stfd 3 4 3#16) sX4 = .fault (.alignment 0x3003#32) :=
  ⟨by decide, eq_fault_of_stopsAs (by decide)⟩
/-- X5: bytes 4 to 7 of the store are not admitted; byte 7 is the boundary. -/
theorem witness_NoStoreIsPerformedInPart :
    sX5.pc ≠ 0xFFFFFFFC#32 ∧ FormAllowed sX5.params iE1 ∧ sX5.msr.fp = true ∧ (storeEA iE1 sX5).toNat ≤ 0xFFFFFFF8 ∧
      (∀ l < 8, sX5.params.inProgramText (storeEA iE1 sX5 + BitVec.ofNat 32 l) = false) ∧
      sX5.params.alignFaults (storeEA iE1 sX5) = false ∧
      sX5.params.isAdmitted (storeEA iE1 sX5 + BitVec.ofNat 32 7) = false ∧
      sX5.params.isAdmitted (storeEA iE1 sX5 + BitVec.ofNat 32 3) = true := by decide
/-- A step from a state that meets the invariant, which changes a byte. -/
theorem witness_EveryStepKeepsTheInvariant :
    Inv sE1 ∧ ∃ t, step sE1 = .next t ∧ t.mem.read 0x1008#32 ≠ sE1.mem.read 0x1008#32 := by
  refine ⟨by decide, ?_⟩
  obtain ⟨t, h, ht⟩ := eq_next_of_nextWith (o := step sE1) (p := fun t => t.mem.read 0x1008#32 != sE1.mem.read 0x1008#32)
    (by decide)
  exact ⟨t, h, by simpa using ht⟩
theorem witness_RunsAreStraightLinesOverFixedText :
    (∃ t, core.run 1 sE1 = .next t) ∧ sE1.params.inProgramText 0x103#32 = true := by
  refine ⟨?_, by decide⟩
  exact (eq_next_of_nextWith (o := core.run 1 sE1) (p := fun _ => true) (by decide)).imp fun _ h => h.1
theorem witness_ALaunchedInstructionRuns :
    sE1.pc.toNat % 4 = 0 ∧ fetchWord sE1 = some 0xD8230008#32 ∧
      decodeWord sE1.params.bit31Policy 0xD8230008#32 = .instr iE1 ∧ Completes iE1 sE1 := by decide

end Sys2Proof.Tests
end

section
/-! SUPPORT. What an instruction leaves alone (10_state.md R24) and what it does not read (R19 to R22). -/

namespace Sys2Proof.Machine

/-! ### An instruction that completes -/

/-- An instruction answers a next state exactly when nothing stops it, and then the effect of the shared store. -/
theorem exec_eq_next_iff {i : Instr} {s t : State} :
    exec i s = .next t ↔ storeStop (updatedRA i) (storeEA i s) s = none ∧
      t = storeEffect (updatedRA i) (sourceFS i) (storeEA i s) s := by
  rw [exec_eq_storeDouble, storeDouble_eq_next_iff]

/-- An instruction that completes has passed the address checks of 40_fp_store_double.md R62. -/
theorem storeAllowed_of_exec_eq_next {i : Instr} {s t : State} (h : exec i s = .next t) :
    StoreAllowed s.params (storeEA i s) := by
  obtain ⟨hstop, -⟩ := exec_eq_next_iff.1 h
  obtain ⟨-, -, -, hallowed⟩ := (storeStop_eq_none_iff ..).1 hstop
  exact hallowed

/-- A form without update keeps every general register (10_state.md R12). -/
theorem exec_next_x_of_no_update {i : Instr} {s t : State} (hu : updatedRA i = none) (h : exec i s = .next t) :
    t.x = s.x := by
  obtain ⟨-, rfl⟩ := exec_eq_next_iff.1 h
  rw [hu, storeEffect_x_none]

/-- No general register but the updated one is written (10_state.md R12). -/
theorem exec_next_x_get_ne {i : Instr} {s t : State} {r : Reg} (hr : updatedRA i ≠ some r) (h : exec i s = .next t) :
    t.x.get r = s.x.get r := by
  obtain ⟨-, rfl⟩ := exec_eq_next_iff.1 h
  exact storeEffect_x_get_ne _ _ _ _ hr

/-- Every reservation held afterwards was held before (20_memory.md R40). -/
theorem mem_rsv_of_exec_eq_next {i : Instr} {s t : State} (h : exec i s = .next t) {r : Reservation} (hr : r ∈ t.rsv) :
    r ∈ s.rsv := by
  obtain ⟨-, rfl⟩ := exec_eq_next_iff.1 h
  rw [storeEffect_rsv] at hr
  exact List.mem_of_mem_filter hr

/-- A byte that is none of the eight at the effective address reads as before (20_memory.md R29). -/
theorem exec_next_read_other {i : Instr} {s t : State} (h : exec i s = .next t) {a : Addr}
    (ha : ∀ k < 8, a ≠ storeEA i s + BitVec.ofNat 32 k) : t.mem.read a = s.mem.read a := by
  obtain ⟨hea, -⟩ := storeAllowed_of_exec_eq_next h
  obtain ⟨-, rfl⟩ := exec_eq_next_iff.1 h
  rw [storeEffect_mem, memWrite_read_other _ _ hea _ ha]

/-- Settles O18: the general registers form by form, then the fields the shared store keeps, the reservations and the
memory. -/
theorem onlyTheNamedStateChanges : Obligations.OnlyTheNamedStateChanges := by
  intro i s t h
  refine ⟨?generalRegisters, ?rest⟩
  case generalRegisters =>
    cases i with
    | stfd => exact exec_next_x_of_no_update rfl h
    | stfdx => exact exec_next_x_of_no_update rfl h
    | stfdu => exact fun r hr => exec_next_x_get_ne (by simpa [updatedRA] using hr.symm) h
    | stfdux => exact fun r hr => exec_next_x_get_ne (by simpa [updatedRA] using hr.symm) h
  case rest =>
    have hrsv : ∀ r ∈ t.rsv, r ∈ s.rsv := fun _ => mem_rsv_of_exec_eq_next h
    have hmem : ∀ ea, storeEA i s = ea → ∀ a, (∀ k < 8, a ≠ ea + BitVec.ofNat 32 k) → t.mem.read a = s.mem.read a := by
      rintro _ rfl a ha
      exact exec_next_read_other h ha
    obtain ⟨-, rfl⟩ := exec_eq_next_iff.1 h
    exact ⟨storeEffect_f .., storeEffect_msr .., storeEffect_fpscr .., storeEffect_cr .., storeEffect_xer ..,
      storeEffect_v .., storeEffect_params .., hrsv, hmem⟩

/-! ### What an instruction reads -/

/-- What stops a store depends on `pc`, MSR and the launch parameters alone (40_fp_store_double.md R62). -/
theorem storeStop_congr {s t : State} (hpc : t.pc = s.pc) (hmsr : t.msr = s.msr) (hparams : t.params = s.params)
    (u : Option Reg) (ea : Addr) : storeStop u ea t = storeStop u ea s := by
  unfold storeStop
  rw [hpc, hmsr, hparams]

/-- The effective address depends on the general registers alone (30_encoding.md R49). -/
theorem storeEA_congr {s t : State} (hx : t.x = s.x) (i : Instr) : storeEA i t = storeEA i s := by
  have hgpr : t.gpr = s.gpr := by unfold State.gpr; rw [hx]
  cases i <;>
    simp only [storeEA, eaStfd, eaStfdu, eaStfdx, eaStfdux, operandRA0, operandRA, operandRB, hgpr]

/-- The outcome with its next state, if it has one, replaced by `g` of it. -/
def mapNext (g : State → State) : Host.Outcome State Fault Refusal → Host.Outcome State Fault Refusal
  | .next t => .next (g t)
  | .fault e => .fault e
  | .refused e => .refused e

/-- A stop carries no state, so nothing in it is replaced (60_exceptions.md R79). -/
@[simp] theorem mapNext_stop (g : State → State) (stop : Stop) : mapNext g stop.outcome = stop.outcome := by
  cases stop <;> rfl

/-- A change of state that neither the checks nor the effective address see, and that commutes with the effect of the
store, commutes with the instruction. -/
theorem exec_mapNext {g : State → State} {i : Instr} {s : State} (hea : storeEA i (g s) = storeEA i s)
    (hstop : ∀ u ea, storeStop u ea (g s) = storeStop u ea s)
    (heffect : ∀ u fs ea, storeEffect u fs ea (g s) = g (storeEffect u fs ea s)) :
    exec i (g s) = mapNext g (exec i s) := by
  rw [exec_eq_storeDouble, exec_eq_storeDouble, hea]
  unfold storeDouble
  rw [hstop]
  cases storeStop (updatedRA i) (storeEA i s) s with
  | some stop => exact (mapNext_stop g stop).symm
  | none => rw [heffect]; rfl

/-- The state with other contents of FPSCR, CR, XER and the vector registers (10_state.md R19 to R22). -/
def State.withStatusAndVector (s : State) (q c : BitVec 32) (xer : Xer) (v : Vector (BitVec 128) 32) : State :=
  { s with fpscr := q, cr := c, xer := xer, v := v }

/-- The effect of a store commutes with any contents of FPSCR, CR, XER and the vector registers. -/
theorem storeEffect_withStatusAndVector (u : Option Reg) (fs : Reg) (ea : Addr) (s : State) (q c : BitVec 32) (xer : Xer)
    (v : Vector (BitVec 128) 32) :
    storeEffect u fs ea (s.withStatusAndVector q c xer v) = (storeEffect u fs ea s).withStatusAndVector q c xer v := by
  cases u <;> rfl

/-- An instruction neither reads nor writes FPSCR, CR, XER and the vector registers. -/
theorem exec_withStatusAndVector (i : Instr) (s : State) (q c : BitVec 32) (xer : Xer) (v : Vector (BitVec 128) 32) :
    exec i (s.withStatusAndVector q c xer v) = mapNext (·.withStatusAndVector q c xer v) (exec i s) :=
  exec_mapNext (g := (·.withStatusAndVector q c xer v)) (storeEA_congr rfl i) (storeStop_congr rfl rfl rfl)
    (storeEffect_withStatusAndVector · · · s q c xer v)

/-- Settles O19: each outcome of the changed state is the old one with these registers put in its next state. -/
theorem statusAndVectorRegistersAreNotRead : Obligations.StatusAndVectorRegistersAreNotRead := by
  intro i s q c xer v
  have key := exec_withStatusAndVector i s q c xer v
  exact ⟨fun _ h => key.trans (congrArg _ h), fun _ h => key.trans (congrArg _ h), fun _ h => key.trans (congrArg _ h)⟩

end Sys2Proof.Machine
end

section
/-! SUPPORT. The effective address sees the low halves of the general registers alone (20_memory.md R27), and so do the
checks and the effect of a store. -/

namespace Sys2Proof.Machine

/-! ### The effective address of the low halves -/

/-- The effective address is the 32-bit sum of the low halves (20_memory.md R27). -/
theorem effectiveAddress_eq_add_low (base offset : Dword) :
    effectiveAddress base offset = base.extractLsb' 0 32 + offset.extractLsb' 0 32 := by
  unfold effectiveAddress
  rw [BitVec.setWidth_add _ _ (by decide), BitVec.setWidth_eq_extractLsb' (by decide),
    BitVec.setWidth_eq_extractLsb' (by decide)]

/-- Operands with the same low halves have the same effective address. -/
theorem effectiveAddress_congr_low {b b' o o' : Dword} (hb : b'.extractLsb' 0 32 = b.extractLsb' 0 32)
    (ho : o'.extractLsb' 0 32 = o.extractLsb' 0 32) : effectiveAddress b' o' = effectiveAddress b o := by
  rw [effectiveAddress_eq_add_low, effectiveAddress_eq_add_low, hb, ho]

/-- The effective address of an instruction depends on the low halves of the general registers alone. -/
theorem storeEA_congr_low {s t : State} (hlow : ∀ r, (t.gpr r).extractLsb' 0 32 = (s.gpr r).extractLsb' 0 32)
    (i : Instr) : storeEA i t = storeEA i s := by
  have hRA0 (ra : Reg) : (operandRA0 t ra).extractLsb' 0 32 = (operandRA0 s ra).extractLsb' 0 32 := by
    unfold operandRA0
    split
    · rfl
    · exact hlow ra
  cases i with
  | stfd _ ra _ => exact effectiveAddress_congr_low (hRA0 ra) rfl
  | stfdu _ ra _ => exact effectiveAddress_congr_low (hlow ra) rfl
  | stfdx _ ra rb => exact effectiveAddress_congr_low (hRA0 ra) (hlow rb)
  | stfdux _ ra rb => exact effectiveAddress_congr_low (hlow ra) (hlow rb)

/-! ### An instruction that stops, and the register it updates -/

/-- Different stops have different outcomes. -/
theorem Stop.outcome_inj {a b : Stop} : a.outcome = b.outcome ↔ a = b := by
  cases a <;> cases b <;> simp [Stop.outcome, takeException]

/-- A stop is no next state. -/
theorem Stop.next_ne_outcome (t : State) (stop : Stop) : .next t ≠ stop.outcome := by
  cases stop <;> exact nofun

/-- An instruction answers a stop exactly when it is the first condition of 40_fp_store_double.md R62 that holds. -/
theorem exec_eq_outcome_iff {i : Instr} {s : State} {stop : Stop} :
    exec i s = stop.outcome ↔ storeStop (updatedRA i) (storeEA i s) s = some stop := by
  rw [exec_eq_storeDouble]
  unfold storeDouble
  split
  · next first h => rw [Stop.outcome_inj, h, Option.some.injEq]
  · next h => simp [h, Stop.next_ne_outcome]

/-- An update form that completes leaves the zero-extended effective address in `RA` (40_fp_store_double.md R64). -/
theorem exec_next_x_get_updatedRA {i : Instr} {s t : State} {ra : Reg} (hu : updatedRA i = some ra)
    (h : exec i s = .next t) : t.x.get ra = (storeEA i s).setWidth 64 := by
  obtain ⟨-, rfl⟩ := exec_eq_next_iff.1 h
  rw [hu, storeEffect_x_get_same]

/-! ### Other contents of the general registers -/

section otherRegisters
variable {i : Instr} {s : State} {x : Vector Dword 32} (hea : storeEA i { s with x := x } = storeEA i s)
include hea

/-- Other general registers with the same effective address leave the checks of R62 as they are. -/
theorem storeStop_withX :
    storeStop (updatedRA i) (storeEA i { s with x := x }) { s with x := x } =
      storeStop (updatedRA i) (storeEA i s) s := by
  rw [hea]
  exact storeStop_congr rfl rfl rfl _ _

/-- Other general registers with the same effective address give the same stop. -/
theorem exec_withX_eq_outcome {stop : Stop} (h : exec i s = stop.outcome) :
    exec i { s with x := x } = stop.outcome :=
  exec_eq_outcome_iff.2 ((storeStop_withX hea).trans (exec_eq_outcome_iff.1 h))

/-- Other general registers with the same effective address let a store complete with the same memory, reservations,
`pc` and updated register. -/
theorem exec_withX_eq_next {t : State} (h : exec i s = .next t) :
    ∃ t', exec i { s with x := x } = .next t' ∧ t'.mem = t.mem ∧ t'.rsv = t.rsv ∧ t'.pc = t.pc ∧
      ∀ ra, updatedRA i = some ra → t'.x.get ra = t.x.get ra := by
  obtain ⟨hstop, ht⟩ := exec_eq_next_iff.1 h
  have h' := exec_eq_next_iff.2 ⟨(storeStop_withX hea).trans hstop, rfl⟩
  refine ⟨_, h', ?memory, ?reservations, ?pc, fun ra hu => ?updated⟩
  case memory => rw [ht, storeEffect_mem, storeEffect_mem, hea]; rfl
  case reservations => rw [ht, storeEffect_rsv, storeEffect_rsv, hea]
  case pc => rw [ht, storeEffect_pc, storeEffect_pc]
  case updated => rw [exec_next_x_get_updatedRA hu h', exec_next_x_get_updatedRA hu h, hea]

end otherRegisters

/-- Settles O21: the effective address is the same, and the stop or the next state follows from it. -/
theorem upperRegisterHalvesHaveNoEffect : Obligations.UpperRegisterHalvesHaveNoEffect := by
  refine ⟨fun base offset => ⟨?sum, effectiveAddress_eq_add_low base offset⟩, fun i s x hlow => ?registers⟩
  case sum => exact BitVec.setWidth_eq_extractLsb' (by decide)
  case registers =>
    have hea : storeEA i { s with x := x } = storeEA i s :=
      storeEA_congr_low (s := s) (t := { s with x := x }) hlow i
    exact ⟨hea, fun e => exec_withX_eq_outcome hea (stop := .raise e),
      fun e => exec_withX_eq_outcome hea (stop := .refuse e), fun _ => exec_withX_eq_next hea⟩

end Sys2Proof.Machine
end

section
/-! SUPPORT. What the decoder reads of a word (30_encoding.md R47, R50 to R53): the fields as shifts and masks, the opcode
readings as masks, and the instruction as the row of the opcode map with the fields. -/

namespace Sys2Proof

/-! ### Fields and masks as shifts (30_encoding.md R47) -/

/-- A field read by shift and mask. -/
theorem extractLsb'_toNat_eq_shift_and (w : Word) (k n : Nat) :
    (w.extractLsb' k n).toNat = (w.toNat >>> k) &&& (2 ^ n - 1) := by
  rw [BitVec.extractLsb'_toNat, Nat.and_two_pow_sub_one_eq_mod]

/-- A register field read by shift and mask. -/
theorem toFin_extractLsb'_eq_iff {w : Word} {k : Nat} {r : Reg} :
    (w.extractLsb' k 5).toFin = r ↔ r.val = (w.toNat >>> k) &&& 0x1F := by
  rw [Fin.ext_iff, eq_comm]
  exact Eq.congr_right (extractLsb'_toNat_eq_shift_and w k 5)

theorem fieldFS_eq_iff {w : Word} {fs : Reg} : fieldFS w = fs ↔ fs.val = (w.toNat >>> 21) &&& 0x1F :=
  toFin_extractLsb'_eq_iff

theorem fieldRA_eq_iff {w : Word} {ra : Reg} : fieldRA w = ra ↔ ra.val = (w.toNat >>> 16) &&& 0x1F :=
  toFin_extractLsb'_eq_iff

theorem fieldRB_eq_iff {w : Word} {rb : Reg} : fieldRB w = rb ↔ rb.val = (w.toNat >>> 11) &&& 0x1F :=
  toFin_extractLsb'_eq_iff

theorem fieldD_eq_iff {w : Word} {d : BitVec 16} : fieldD w = d ↔ d.toNat = w.toNat &&& 0xFFFF := by
  rw [← BitVec.toNat_inj, eq_comm]
  exact Eq.congr_right (extractLsb'_toNat_eq_shift_and w 0 16)

/-- Two concatenations at the same place are equal exactly when both parts are. -/
theorem append_eq_append_iff {m n : Nat} {a c : BitVec m} {b d : BitVec n} : a ++ b = c ++ d ↔ a = c ∧ b = d := by
  constructor
  · intro h
    have hhi := congrArg (BitVec.extractLsb' n m) h
    have hlo := congrArg (BitVec.extractLsb' 0 n) h
    rw [BitVec.extractLsb'_append_eq_left, BitVec.extractLsb'_append_eq_left] at hhi
    rw [BitVec.extractLsb'_append_eq_right, BitVec.extractLsb'_append_eq_right] at hlo
    exact ⟨hhi, hlo⟩
  · rintro ⟨rfl, rfl⟩
    rfl

/-- The mask of the D forms keeps the primary opcode. -/
theorem and_opcd_mask (w : Word) : w &&& 0xFC000000#32 = w.extractLsb' 26 6 ++ 0#26 := by
  have hw : w.extractLsb' 26 6 ++ w.extractLsb' 0 26 = w := BitVec.extractLsb'_append_extractLsb' (w := 6)
  calc w &&& 0xFC000000#32
      = (w.extractLsb' 26 6 ++ w.extractLsb' 0 26) &&& (BitVec.allOnes 6 ++ 0#26) := congrArg (· &&& _) hw.symm
    _ = w.extractLsb' 26 6 ++ 0#26 := by rw [BitVec.and_append, BitVec.and_allOnes, BitVec.and_zero]

/-- The mask of the X forms keeps the primary opcode, the extended opcode and bit 31. -/
theorem and_xform_mask (w : Word) :
    w &&& 0xFC0007FF#32 = w.extractLsb' 26 6 ++ 0#15 ++ w.extractLsb' 1 10 ++ w.extractLsb' 0 1 := by
  have hw : w.extractLsb' 26 6 ++ w.extractLsb' 11 15 ++ w.extractLsb' 1 10 ++ w.extractLsb' 0 1 = w := by
    rw [BitVec.extractLsb'_append_extractLsb'_eq_extractLsb' (show 26 = 11 + 15 from rfl),
      BitVec.extractLsb'_append_extractLsb'_eq_extractLsb' (show 11 = 1 + 10 from rfl),
      BitVec.extractLsb'_append_extractLsb'_eq_extractLsb' (show 1 = 0 + 1 from rfl)]
    exact BitVec.extractLsb'_eq_self
  calc w &&& 0xFC0007FF#32
      = (w.extractLsb' 26 6 ++ w.extractLsb' 11 15 ++ w.extractLsb' 1 10 ++ w.extractLsb' 0 1) &&&
          (BitVec.allOnes 6 ++ 0#15 ++ BitVec.allOnes 10 ++ BitVec.allOnes 1) := congrArg (· &&& _) hw.symm
    _ = w.extractLsb' 26 6 ++ 0#15 ++ w.extractLsb' 1 10 ++ w.extractLsb' 0 1 := by
      simp only [BitVec.and_append, BitVec.and_allOnes, BitVec.and_zero]

/-- The primary opcode by shift and by mask (30_encoding.md R50, R51). -/
theorem opcd_iff (w : Word) (op : BitVec 6) :
    (w.toNat >>> 26) &&& 0x3F = op.toNat ↔ w &&& 0xFC000000#32 = op ++ 0#26 := by
  rw [and_opcd_mask, BitVec.append_left_inj, ← BitVec.toNat_inj]
  exact Eq.congr_left (extractLsb'_toNat_eq_shift_and w 26 6).symm

/-- The primary opcode, the extended opcode and bit 31 by shift and by mask (30_encoding.md R52, R53). -/
theorem xform_iff (w : Word) (op : BitVec 6) (xo : BitVec 10) :
    ((w.toNat >>> 26) &&& 0x3F = op.toNat ∧ (w.toNat >>> 1) &&& 0x3FF = xo.toNat ∧ w.toNat &&& 0x1 = 0) ↔
      w &&& 0xFC0007FF#32 = op ++ 0#15 ++ xo ++ 0#1 := by
  rw [and_xform_mask, append_eq_append_iff, append_eq_append_iff, BitVec.append_left_inj, and_assoc,
    ← BitVec.toNat_inj, ← BitVec.toNat_inj, ← BitVec.toNat_inj]
  simp only [extractLsb'_toNat_eq_shift_and]
  rfl

/-! ### The instruction a word decodes to -/

/-- The row of the opcode map an instruction belongs to. -/
def Instr.mnemonic : Instr → Mnemonic
  | .stfd _ _ _ => .stfd
  | .stfdu _ _ _ => .stfdu
  | .stfdx _ _ _ => .stfdx
  | .stfdux _ _ _ => .stfdux

/-- The fields of a word under a row make an instruction of that row. -/
@[simp] theorem mnemonic_ofFields (w : Word) (m : Mnemonic) : (ofFields w m).mnemonic = m := by cases m <;> rfl

/-- A reserved word is one of an X form (30_encoding.md R54). -/
theorem isX_of_reservedX {w : Word} {m : Mnemonic} (h : reservedX w = some m) : m.isX = true := by
  unfold reservedX at h
  split at h
  · exact (Option.filter_eq_some_iff.1 h).2
  · simp at h

/-- Under `refuse`, and for the D forms under either policy, a word decodes to an instruction exactly when the row that
accepts it is the instruction's and its fields are the operands: R54's `ignore` adds words of the X forms alone. -/
theorem decodeWord_eq_instr_iff {p : Bit31Policy} {w : Word} {i : Instr} (h : p = .refuse ∨ i.mnemonic.isX = false) :
    decodeWord p w = .instr i ↔ lookup w = some i.mnemonic ∧ ofFields w i.mnemonic = i := by
  unfold decodeWord
  split
  next m hm =>
    rw [hm, Decoded.instr.injEq, Option.some.injEq]
    constructor
    · rintro rfl
      simp
    · rintro ⟨rfl, hi⟩
      exact hi
  next hnone =>
    rw [hnone]
    split
    next => simp
    next => simp
    next m hm =>
      obtain hp | hD := h
      · exact nomatch hp
      · have hne : ofFields w m ≠ i := by
          rintro rfl
          rw [mnemonic_ofFields, isX_of_reservedX hm] at hD
          exact nomatch hD
        simp [hne]

theorem decodeWord_eq_stfd_iff (p : Bit31Policy) (w : Word) (fs ra : Reg) (d : BitVec 16) :
    decodeWord p w = .instr (.stfd fs ra d) ↔
      w &&& 0xFC000000#32 = 0xD8000000#32 ∧ fieldFS w = fs ∧ fieldRA w = ra ∧ fieldD w = d := by
  rw [decodeWord_eq_instr_iff (.inr rfl), ← lookup_stfd, ← Instr.stfd.injEq]
  rfl

theorem decodeWord_eq_stfdu_iff (p : Bit31Policy) (w : Word) (fs ra : Reg) (d : BitVec 16) :
    decodeWord p w = .instr (.stfdu fs ra d) ↔
      w &&& 0xFC000000#32 = 0xDC000000#32 ∧ fieldFS w = fs ∧ fieldRA w = ra ∧ fieldD w = d := by
  rw [decodeWord_eq_instr_iff (.inr rfl), ← lookup_stfdu, ← Instr.stfdu.injEq]
  rfl

theorem decodeWord_eq_stfdx_iff (w : Word) (fs ra rb : Reg) :
    decodeWord .refuse w = .instr (.stfdx fs ra rb) ↔
      w &&& 0xFC0007FF#32 = 0x7C0005AE#32 ∧ fieldFS w = fs ∧ fieldRA w = ra ∧ fieldRB w = rb := by
  rw [decodeWord_eq_instr_iff (.inl rfl), ← lookup_stfdx, ← Instr.stfdx.injEq]
  rfl

theorem decodeWord_eq_stfdux_iff (w : Word) (fs ra rb : Reg) :
    decodeWord .refuse w = .instr (.stfdux fs ra rb) ↔
      w &&& 0xFC0007FF#32 = 0x7C0005EE#32 ∧ fieldFS w = fs ∧ fieldRA w = ra ∧ fieldRB w = rb := by
  rw [decodeWord_eq_instr_iff (.inl rfl), ← lookup_stfdux, ← Instr.stfdux.injEq]
  rfl

/-- The readings of `stfdx` and of its mask agree (30_encoding.md R52). -/
theorem stfdx_opcode_iff (w : Word) :
    ((w.toNat >>> 26) &&& 0x3F = 31 ∧ (w.toNat >>> 1) &&& 0x3FF = 727 ∧ w.toNat &&& 0x1 = 0) ↔
      w &&& 0xFC0007FF#32 = 0x7C0005AE#32 := xform_iff w 31#6 727#10

/-- The readings of `stfdux` and of its mask agree (30_encoding.md R53). -/
theorem stfdux_opcode_iff (w : Word) :
    ((w.toNat >>> 26) &&& 0x3F = 31 ∧ (w.toNat >>> 1) &&& 0x3FF = 759 ∧ w.toNat &&& 0x1 = 0) ↔
      w &&& 0xFC0007FF#32 = 0x7C0005EE#32 := xform_iff w 31#6 759#10

/-- Settles O3: each form's words by its row of the opcode map, the fields by their shifts, each opcode reading by its mask,
and the valid forms. -/
theorem decodingReadsEveryField : Obligations.DecodingReadsEveryField := by
  refine ⟨?stfd, ?stfdu, ?stfdx, ?stfdux, fun w => opcd_iff w 54#6, fun w => opcd_iff w 55#6, stfdx_opcode_iff,
    stfdux_opcode_iff, ?validD, ?validX⟩
  case stfd =>
    intro p w fs ra d
    rw [decodeWord_eq_stfd_iff, fieldFS_eq_iff, fieldRA_eq_iff, fieldD_eq_iff]
  case stfdu =>
    intro p w fs ra d
    rw [decodeWord_eq_stfdu_iff, fieldFS_eq_iff, fieldRA_eq_iff, fieldD_eq_iff]
  case stfdx =>
    intro w fs ra rb
    rw [decodeWord_eq_stfdx_iff, ← stfdx_opcode_iff, fieldFS_eq_iff, fieldRA_eq_iff, fieldRB_eq_iff, and_assoc, and_assoc]
  case stfdux =>
    intro w fs ra rb
    rw [decodeWord_eq_stfdux_iff, ← stfdux_opcode_iff, fieldFS_eq_iff, fieldRA_eq_iff, fieldRB_eq_iff, and_assoc, and_assoc]
  case validD => exact fun _ _ _ => ⟨rfl, bne_iff_ne⟩
  case validX => exact fun _ _ _ => ⟨rfl, bne_iff_ne⟩

end Sys2Proof
end

section
/-! SUPPORT. The displacement and the base operands of the effective address (30_encoding.md R48, R49). -/

namespace Sys2Proof.Machine

/-! ### The displacement (30_encoding.md R48) -/

/-- Below bit 16 the extended displacement has the raw bits, from there on copies of bit 15. -/
theorem getLsbD_extsD (d : BitVec 16) {k : Nat} (hk : k < 64) :
    (extsD d).getLsbD k = if k < 16 then d.getLsbD k else d.getLsbD 15 := by
  rw [extsD, BitVec.getLsbD_signExtend, decide_eq_true hk, Bool.true_and, BitVec.msb_eq_getLsbD_last]

/-- Settles O22: the value and its range by two's complement, the bits by the sign extension. -/
theorem displacementIsSigned : Obligations.DisplacementIsSigned := by
  intro d
  refine ⟨BitVec.toInt_signExtend_of_le (by decide), BitVec.le_toInt d, BitVec.toInt_le, ?raw, fun k hk hlt => ?sign⟩
  case raw =>
    refine BitVec.eq_of_getLsbD_eq fun k hk => ?_
    rw [BitVec.getLsbD_extractLsb', Nat.zero_add, getLsbD_extsD d (by omega), if_pos hk, decide_eq_true hk, Bool.true_and]
  case sign => rw [getLsbD_extsD d hlt, if_neg (by omega)]

/-! ### The base operand (30_encoding.md R49) -/

theorem operandRA0_of_ne {ra : Reg} (h : ra ≠ 0) (s : State) : operandRA0 s ra = s.x.get ra := if_neg h

/-- The effective address is the low half of the 64-bit sum (20_memory.md R27). -/
theorem effectiveAddress_eq_low (base offset : Dword) : effectiveAddress base offset = (base + offset).extractLsb' 0 32 :=
  BitVec.setWidth_eq_extractLsb' (by decide)

/-- On the literal zero the effective address is the low half of the offset. -/
theorem effectiveAddress_zero (offset : Dword) : effectiveAddress 0#64 offset = offset.extractLsb' 0 32 := by
  rw [effectiveAddress_eq_low, BitVec.zero_add]

/-- `stfd` with `RA = 0` does not read `r0` for its address. -/
theorem storeEA_stfd_zero (fs : Reg) (d : BitVec 16) (s : State) :
    storeEA (.stfd fs 0 d) s = (d.signExtend 64).extractLsb' 0 32 := effectiveAddress_zero _

/-- `stfdx` with `RA = 0` reads the index register alone. -/
theorem storeEA_stfdx_zero (fs rb : Reg) (s : State) : storeEA (.stfdx fs 0 rb) s = (s.x.get rb).extractLsb' 0 32 :=
  effectiveAddress_zero _

/-- A form without update whose address does not see register `r` has the same outcome after a write to `r`, with that
write in its next state. -/
theorem exec_setGpr {i : Instr} {s : State} {r : Reg} {w : Dword} (hu : updatedRA i = none)
    (hea : storeEA i (s.setGpr r w) = storeEA i s) :
    exec i (s.setGpr r w) = mapNext (·.setGpr r w) (exec i s) := by
  rw [exec_eq_storeDouble, exec_eq_storeDouble, hea, hu]
  unfold storeDouble
  rw [storeStop_congr (s := s) (t := s.setGpr r w) rfl rfl rfl]
  cases storeStop none (storeEA i s) s with
  | some stop => exact (mapNext_stop _ stop).symm
  | none => rfl

/-- `stfd` with `RA = 0` has the same outcome whatever `r0` holds. -/
theorem exec_stfd_zero_setGpr_zero (fs : Reg) (d : BitVec 16) (s : State) (w : Dword) :
    exec (.stfd fs 0 d) (s.setGpr 0 w) = mapNext (·.setGpr 0 w) (exec (.stfd fs 0 d) s) :=
  exec_setGpr rfl (by rw [storeEA_stfd_zero, storeEA_stfd_zero])

/-- `stfdx` with `RA = 0` and another index register has the same outcome whatever `r0` holds. -/
theorem exec_stfdx_zero_setGpr_zero (fs : Reg) {rb : Reg} (hrb : rb ≠ 0) (s : State) (w : Dword) :
    exec (.stfdx fs 0 rb) (s.setGpr 0 w) = mapNext (·.setGpr 0 w) (exec (.stfdx fs 0 rb) s) := by
  have hidx : (s.setGpr 0 w).x.get rb = s.x.get rb := State.gpr_setGpr_ne s 0 w hrb
  exact exec_setGpr rfl (by rw [storeEA_stfdx_zero, storeEA_stfdx_zero, hidx])

/-- Settles O23: the four addresses by the base operand, and the independence of `r0` for the two forms without update. -/
theorem ra0ReadsTheLiteralZero : Obligations.RA0ReadsTheLiteralZero := by
  refine ⟨fun s fs d => storeEA_stfd_zero fs d s, fun s fs rb => storeEA_stfdx_zero fs rb s, ?nonzeroBase, ?plainBase,
    ?r0NotRead, fun _ _ _ => ⟨rfl, rfl⟩⟩
  case nonzeroBase =>
    intro s fs ra rb d hra
    simp only [storeEA, eaStfd, eaStfdx, operandRA0_of_ne hra, effectiveAddress_eq_low]
    exact ⟨rfl, rfl⟩
  case plainBase => exact fun _ _ _ _ _ => ⟨effectiveAddress_eq_low .., effectiveAddress_eq_low ..⟩
  case r0NotRead =>
    intro i s w hform
    have key : exec i (s.setGpr 0 w) = mapNext (·.setGpr 0 w) (exec i s) := by
      cases i with
      | stfd fs ra d =>
        obtain rfl : ra = 0 := hform
        exact exec_stfd_zero_setGpr_zero fs d s w
      | stfdx fs ra rb =>
        obtain ⟨rfl, hrb⟩ : ra = 0 ∧ rb ≠ 0 := hform
        exact exec_stfdx_zero_setGpr_zero fs hrb s w
      | stfdu => exact hform.elim
      | stfdux => exact hform.elim
    exact ⟨fun _ h => key.trans (congrArg _ h), fun _ h => key.trans (congrArg _ h), fun _ h => key.trans (congrArg _ h)⟩

end Sys2Proof.Machine
end

section
/-! SUPPORT. Decoder and encoder are inverse to each other (30_encoding.md R45 to R55, R59). -/

namespace Sys2Proof

/-! ### From an instruction to its word and back -/

/-- The row of the opcode map that accepts an instruction's word is the instruction's own. -/
theorem lookup_encode (i : Instr) : lookup (encode i) = some i.mnemonic := by
  cases i with
  | stfd fs ra d => exact Laws.EncodeAccepted.stfd fs ra d
  | stfdu fs ra d => exact Laws.EncodeAccepted.stfdu fs ra d
  | stfdx fs ra rb => exact (Laws.EncodeAccepted.stfdx fs ra rb).1
  | stfdux fs ra rb => exact (Laws.EncodeAccepted.stfdux fs ra rb).1

/-- The fields of an instruction's word are its operands. -/
theorem ofFields_encode (i : Instr) : ofFields (encode i) i.mnemonic = i := by
  cases i with
  | stfd | stfdu => simp only [Instr.mnemonic, encode, ofFields, fieldFS_encodeD, fieldRA_encodeD, fieldD_encodeD]
  | stfdx | stfdux => simp only [Instr.mnemonic, encode, ofFields, fieldFS_encodeX, fieldRA_encodeX, fieldRB_encodeX]

/-- A word that a row of the map accepts is that row's instruction under both policies. -/
theorem decodeWord_of_lookup (p : Bit31Policy) {w : Word} {m : Mnemonic} (h : lookup w = some m) :
    decodeWord p w = .instr (ofFields w m) := by
  unfold decodeWord
  rw [h]

theorem decodeWord_encode (p : Bit31Policy) (i : Instr) : decodeWord p (encode i) = .instr i := by
  rw [decodeWord_of_lookup p (lookup_encode i), ofFields_encode]

/-- Settles O1: the row accepts the word, and the fields read back. -/
theorem decodeOfEncodeIsTheInstruction : Obligations.DecodeOfEncodeIsTheInstruction := decodeWord_encode

/-! ### From a word to its instruction and back -/

/-- A word is its D-form fields (30_encoding.md R45). -/
theorem encodeD_fields (w : Word) : encodeD (w.extractLsb' 26 6) (fieldFS w) (fieldRA w) (fieldD w) = w := by
  show w.extractLsb' 26 6 ++ w.extractLsb' 21 5 ++ w.extractLsb' 16 5 ++ w.extractLsb' 0 16 = w
  rw [BitVec.extractLsb'_append_extractLsb'_eq_extractLsb' (show 26 = 21 + 5 from rfl),
    BitVec.extractLsb'_append_extractLsb'_eq_extractLsb' (show 21 = 16 + 5 from rfl),
    BitVec.extractLsb'_append_extractLsb'_eq_extractLsb' (show 16 = 0 + 16 from rfl)]
  exact BitVec.extractLsb'_eq_self

/-- A word with bit 31 = 0 is its X-form fields (30_encoding.md R46). -/
theorem encodeX_fields {w : Word} (h : w.extractLsb' 0 1 = 0#1) :
    encodeX (w.extractLsb' 26 6) (fieldFS w) (fieldRA w) (fieldRB w) (w.extractLsb' 1 10) = w := by
  show w.extractLsb' 26 6 ++ w.extractLsb' 21 5 ++ w.extractLsb' 16 5 ++ w.extractLsb' 11 5 ++ w.extractLsb' 1 10
    ++ 0#1 = w
  rw [← h, BitVec.extractLsb'_append_extractLsb'_eq_extractLsb' (show 26 = 21 + 5 from rfl),
    BitVec.extractLsb'_append_extractLsb'_eq_extractLsb' (show 21 = 16 + 5 from rfl),
    BitVec.extractLsb'_append_extractLsb'_eq_extractLsb' (show 16 = 11 + 5 from rfl),
    BitVec.extractLsb'_append_extractLsb'_eq_extractLsb' (show 11 = 1 + 10 from rfl),
    BitVec.extractLsb'_append_extractLsb'_eq_extractLsb' (show 1 = 0 + 1 from rfl)]
  exact BitVec.extractLsb'_eq_self

/-- A word of a D row is the encoding of its fields under the row's opcode. -/
theorem encodeD_of_and_mask {w : Word} {op : BitVec 6} (h : w &&& 0xFC000000#32 = op ++ 0#26) :
    encodeD op (fieldFS w) (fieldRA w) (fieldD w) = w := by
  rw [and_opcd_mask, BitVec.append_left_inj] at h
  rw [← h, encodeD_fields]

/-- A word of an X row is the encoding of its fields under the row's opcode and extended opcode. -/
theorem encodeX_of_and_mask {w : Word} {op : BitVec 6} {xo : BitVec 10}
    (h : w &&& 0xFC0007FF#32 = op ++ 0#15 ++ xo ++ 0#1) :
    encodeX op (fieldFS w) (fieldRA w) (fieldRB w) xo = w := by
  rw [and_xform_mask, append_eq_append_iff, append_eq_append_iff, BitVec.append_left_inj] at h
  obtain ⟨⟨hop, hxo⟩, hbit31⟩ := h
  rw [← hop, ← hxo, encodeX_fields hbit31]

/-- No bit of a word that a row accepts is dropped: encoding its fields gives the word back. -/
theorem encode_ofFields {w : Word} {m : Mnemonic} (h : lookup w = some m) : encode (ofFields w m) = w := by
  cases m with
  | stfd => exact encodeD_of_and_mask (op := 54#6) ((lookup_stfd w).1 h)
  | stfdu => exact encodeD_of_and_mask (op := 55#6) ((lookup_stfdu w).1 h)
  | stfdx => exact encodeX_of_and_mask (op := 31#6) (xo := 727#10) ((lookup_stfdx w).1 h)
  | stfdux => exact encodeX_of_and_mask (op := 31#6) (xo := 759#10) ((lookup_stfdux w).1 h)

/-- Settles O2: one way the word is rebuilt from its fields, the other way is the round trip of O1. -/
theorem eachInstructionHasOneWord : Obligations.EachInstructionHasOneWord := by
  intro w i
  constructor
  · intro h
    obtain ⟨hrow, hfields⟩ := (decodeWord_eq_instr_iff (.inl rfl)).1 h
    rw [← hfields, encode_ofFields hrow]
  · rintro rfl
    exact decodeWord_encode .refuse i

/-- Settles O6: the decoder evaluated on the seven words. -/
theorem writtenOutWordsDecode : Obligations.WrittenOutWordsDecode := by
  unfold Obligations.WrittenOutWordsDecode
  decide

/-! ### The word as a number (30_encoding.md R59) -/

theorem toNat_encodeD (op : BitVec 6) (fs ra : Reg) (d : BitVec 16) :
    (encodeD op fs ra d).toNat = (op.toNat <<< 26) ||| (fs.val <<< 21) ||| (ra.val <<< 16) ||| d.toNat := by
  simp only [encodeD, BitVec.toNat_append, Nat.shiftLeft_or_distrib, ← Nat.shiftLeft_add]
  rfl

theorem toNat_encodeX (op : BitVec 6) (fs ra rb : Reg) (xo : BitVec 10) :
    (encodeX op fs ra rb xo).toNat =
      (op.toNat <<< 26) ||| (fs.val <<< 21) ||| (ra.val <<< 16) ||| (rb.val <<< 11) ||| (xo.toNat <<< 1) := by
  simp only [encodeX, BitVec.toNat_append, Nat.shiftLeft_or_distrib, ← Nat.shiftLeft_add, BitVec.toNat_ofNat,
    Nat.zero_mod, Nat.or_zero]
  rfl

end Sys2Proof
end

section
/-! SUPPORT. The assembler, one equation per form of line (30_encoding.md R58, R59). -/

namespace Sys2Proof.Machine

theorem assemble_stfd (fs : Reg) (d : Int) (base : AsmReg) :
    assemble ⟨.stfd, [.reg (.fpr fs), .disp d base]⟩ =
      (ra0Field base).bind fun ra => (dispField d).map (.stfd fs ra ·) := by
  cases h : ra0Field base <;> cases h' : dispField d <;> simp [assemble, h, h']

theorem assemble_stfdu (fs : Reg) (d : Int) (base : AsmReg) :
    assemble ⟨.stfdu, [.reg (.fpr fs), .disp d base]⟩ =
      (gprField base).bind fun ra => (dispField d).map (.stfdu fs ra ·) := by
  cases h : gprField base <;> cases h' : dispField d <;> simp [assemble, h, h']

theorem assemble_stfdx (fs : Reg) (a b : AsmReg) :
    assemble ⟨.stfdx, [.reg (.fpr fs), .reg a, .reg b]⟩ =
      (ra0Field a).bind fun ra => (gprField b).map (.stfdx fs ra ·) := by
  cases h : ra0Field a <;> cases h' : gprField b <;> simp [assemble, h, h']

theorem assemble_stfdux (fs : Reg) (a b : AsmReg) :
    assemble ⟨.stfdux, [.reg (.fpr fs), .reg a, .reg b]⟩ =
      (gprField a).bind fun ra => (gprField b).map (.stfdux fs ra ·) := by
  cases h : gprField a <;> cases h' : gprField b <;> simp [assemble, h, h']

@[simp] theorem ra0Field_gpr (r : Reg) : ra0Field (.gpr r) = some r := rfl
@[simp] theorem ra0Field_zero : ra0Field .zero = some 0 := rfl
@[simp] theorem gprField_gpr (r : Reg) : gprField (.gpr r) = some r := rfl

/-- The written base operand reads as the field it was written for. -/
@[simp] theorem ra0Field_ra0Operand (ra : Reg) : ra0Field (ra0Operand ra) = some ra := by
  unfold ra0Operand
  split
  next h => rw [ra0Field_zero, h]
  next => rfl

theorem dispField_of_mem_range {d : Int} (h : -32768 ≤ d ∧ d ≤ 32767) : dispField d = some (BitVec.ofInt 16 d) :=
  if_pos h

theorem dispField_of_not_mem_range {d : Int} (h : ¬ (-32768 ≤ d ∧ d ≤ 32767)) : dispField d = none := if_neg h

/-- A displacement field read as a signed number is assembled to itself. -/
@[simp] theorem dispField_toInt (d : BitVec 16) : dispField d.toInt = some d := by
  rw [dispField_of_mem_range ⟨BitVec.le_toInt d, BitVec.toInt_le⟩, BitVec.ofInt_toInt]

/-- Settles O8: form by form, each operand is read back. -/
theorem assembleOfDisassembleIsTheInstruction : Obligations.AssembleOfDisassembleIsTheInstruction := by
  intro i
  cases i with
  | stfd fs ra d => simp [disassemble, assemble_stfd]
  | stfdu fs ra d => simp [disassemble, assemble_stfdu]
  | stfdx fs ra rb => simp [disassemble, assemble_stfdx]
  | stfdux fs ra rb => simp [disassemble, assemble_stfdux]

/-- Settles O7: the assembler line by line, then the word of the instruction as a number. -/
theorem assemblyEncodesByTheFormula : Obligations.AssemblyEncodesByTheFormula := by
  refine ⟨?outside, ?dForms, ?xForms, by decide, by decide, by decide, by decide⟩
  case outside =>
    intro fs ra d h
    simp [assemble_stfd, assemble_stfdu, dispField_of_not_mem_range h]
  case dForms =>
    intro fs ra d h
    have hd : (BitVec.ofInt 16 d).toNat = (d % 65536).toNat := BitVec.toNat_ofInt d
    simp [assemble_stfd, assemble_stfdu, dispField_of_mem_range h, encode, toNat_encodeD, hd]
  case xForms =>
    intro fs ra rb
    simp [assemble_stfdx, assemble_stfdux, encode, toNat_encodeX]

end Sys2Proof.Machine
end

section
/-! SUPPORT. When an instruction completes, and what stops it otherwise (40_fp_store_double.md R62, 60_exceptions.md R72). -/

namespace Sys2Proof.Machine

/-! ### Completion -/

/-- An instruction that meets the conditions of R62 answers the effect of the shared store. -/
theorem exec_eq_next_of_completes {i : Instr} {s : State} (h : Completes i s) :
    exec i s = .next (storeEffect (updatedRA i) (sourceFS i) (storeEA i s) s) := by
  obtain ⟨hpc, hform, hfp, hallowed⟩ := h
  refine exec_eq_next_iff.2 ⟨(storeStop_eq_none_iff ..).2 ⟨hpc, ?_, hfp, hallowed⟩, rfl⟩
  rwa [isInvalidForm_updatedRA, Bool.not_eq_false']

/-- An instruction that completes met the conditions of R62. -/
theorem completes_of_exec_eq_next {i : Instr} {s t : State} (h : exec i s = .next t) : Completes i s := by
  obtain ⟨hstop, -⟩ := exec_eq_next_iff.1 h
  obtain ⟨hpc, hform, hfp, hallowed⟩ := (storeStop_eq_none_iff ..).1 hstop
  rw [isInvalidForm_updatedRA, Bool.not_eq_false'] at hform
  exact ⟨hpc, hform, hfp, hallowed⟩

/-- Settles O17: both directions are the lemmas above. -/
theorem completesExactlyWhenAllowed : Obligations.CompletesExactlyWhenAllowed := fun _ _ =>
  ⟨fun ⟨_, h⟩ => completes_of_exec_eq_next h, fun h => ⟨_, exec_eq_next_of_completes h⟩⟩

/-- The zero-extended effective address is its 32 bits under 32 zeros (40_fp_store_double.md R64). -/
theorem setWidth_eq_zero_append (ea : Addr) : ea.setWidth 64 = 0#32 ++ ea :=
  BitVec.setWidth_eq_append (by decide)

/-- Settles O13: the effect of the shared store without update. -/
theorem stfdCompletes : Obligations.StfdCompletes := by
  intro fs ra d s base64 sum64 ea hpc hfp hallowed
  have hea : storeEA (.stfd fs ra d) s = ea := effectiveAddress_eq_low ..
  have hcompletes : Completes (.stfd fs ra d) s := ⟨hpc, .inl rfl, hfp, hea ▸ hallowed⟩
  rw [exec_eq_next_of_completes hcompletes, hea]
  rfl

/-- Settles O15: the effect of the shared store without update. -/
theorem stfdxCompletes : Obligations.StfdxCompletes := by
  intro fs ra rb s base64 sum64 ea hpc hfp hallowed
  have hea : storeEA (.stfdx fs ra rb) s = ea := effectiveAddress_eq_low ..
  have hcompletes : Completes (.stfdx fs ra rb) s := ⟨hpc, .inl rfl, hfp, hea ▸ hallowed⟩
  rw [exec_eq_next_of_completes hcompletes, hea]
  rfl

/-- Settles O14: the effect of the shared store with `RA` updated. -/
theorem stfduCompletes : Obligations.StfduCompletes := by
  intro fs ra d s sum64 ea hpc hform hfp hallowed
  have hea : storeEA (.stfdu fs ra d) s = ea := effectiveAddress_eq_low ..
  have hcompletes : Completes (.stfdu fs ra d) s := ⟨hpc, hform.imp_left bne_iff_ne.2, hfp, hea ▸ hallowed⟩
  rw [exec_eq_next_of_completes hcompletes, hea, ← setWidth_eq_zero_append]
  rfl

/-- Settles O16: the effect of the shared store with `RA` updated. -/
theorem stfduxCompletes : Obligations.StfduxCompletes := by
  intro fs ra rb s sum64 ea hpc hform hfp hallowed
  have hea : storeEA (.stfdux fs ra rb) s = ea := effectiveAddress_eq_low ..
  have hcompletes : Completes (.stfdux fs ra rb) s := ⟨hpc, hform.imp_left bne_iff_ne.2, hfp, hea ▸ hallowed⟩
  rw [exec_eq_next_of_completes hcompletes, hea, ← setWidth_eq_zero_append]
  rfl

/-- Settles O24: the eight sums evaluated. -/
theorem addressSumCorners : Obligations.AddressSumCorners := by
  unfold Obligations.AddressSumCorners
  decide

/-! ### Each stop and its condition (60_exceptions.md R72, R78) -/

/-- One of the eight bytes at `ea` lies in the program text (20_memory.md R42). -/
abbrev TouchesText (p : LaunchParams) (ea : Addr) : Prop := ∃ k < 8, p.inProgramText (ea + BitVec.ofNat 32 k) = true

/-- One of the eight bytes at `ea` is not admitted (20_memory.md R36). -/
abbrev HasHole (p : LaunchParams) (ea : Addr) : Prop := ∃ k < 8, p.isAdmitted (ea + BitVec.ofNat 32 k) = false

/-- What stops an instruction, with the conditions of R62 as the statements write them. -/
theorem storeStop_instr_eq (i : Instr) (s : State) :
    storeStop (updatedRA i) (storeEA i s) s =
      if s.pc = 0xFFFFFFFC#32 then some (.refuse .pcWrap)
      else if ¬ FormAllowed s.params i then some (.refuse .invalidFormRA0)
      else if s.msr.fp = false then some (.raise (.floatingPointUnavailable s.pc))
      else if 0xFFFFFFF8 < (storeEA i s).toNat then some (.refuse .storeWrapsAddressSpace)
      else if TouchesText s.params (storeEA i s) then some (.refuse .storeToProgramText)
      else if s.params.alignFaults (storeEA i s) = true then some (.raise (.alignment (storeEA i s)))
      else if HasHole s.params (storeEA i s) then some (.raise (.memoryFault (storeEA i s)))
      else none := by
  have form : (isInvalidForm (updatedRA i) && s.params.invalidFormPolicy == .refuse) = true ↔
      ¬ FormAllowed s.params i := by
    rw [isInvalidForm_updatedRA, FormAllowed]
    cases i.wellFormed <;> cases s.params.invalidFormPolicy <;> decide
  have fp : (!s.msr.fp) = true ↔ s.msr.fp = false := Bool.not_eq_true' _ ▸ .rfl
  have text : ((List.range 8).any fun k => s.params.inProgramText (byteAddr (storeEA i s) k)) = true ↔
      TouchesText s.params (storeEA i s) := by
    simp [byteAddr]
  have hole : (!(List.range 8).all fun k => s.params.isAdmitted (byteAddr (storeEA i s) k)) = true ↔
      HasHole s.params (storeEA i s) := by
    simp [byteAddr]
  exact if_congr .rfl rfl <| if_congr form rfl <| if_congr fp rfl <| if_congr BitVec.lt_def rfl <|
    if_congr text rfl <| if_congr .rfl rfl <| if_congr hole rfl rfl

section stops
variable {i : Instr} {s : State} {a : Addr}

theorem exec_eq_pcWrap_iff : exec i s = .refused .pcWrap ↔ s.pc = 0xFFFFFFFC#32 := by
  refine (exec_eq_outcome_iff (stop := .refuse .pcWrap)).trans ?_
  rw [storeStop_instr_eq]
  simp [-not_or, -not_exists, ite_eq_iff]

theorem exec_eq_invalidFormRA0_iff :
    exec i s = .refused .invalidFormRA0 ↔ s.pc ≠ 0xFFFFFFFC#32 ∧ ¬ FormAllowed s.params i := by
  refine (exec_eq_outcome_iff (stop := .refuse .invalidFormRA0)).trans ?_
  rw [storeStop_instr_eq]
  simp [-not_or, -not_exists, ite_eq_iff]

theorem exec_eq_floatingPointUnavailable_iff :
    exec i s = .fault (.floatingPointUnavailable a) ↔
      s.pc ≠ 0xFFFFFFFC#32 ∧ FormAllowed s.params i ∧ s.msr.fp = false ∧ a = s.pc := by
  refine (exec_eq_outcome_iff (stop := .raise (.floatingPointUnavailable a))).trans ?_
  rw [storeStop_instr_eq]
  simp [-not_or, -not_exists, ite_eq_iff, eq_comm (a := a)]

theorem exec_eq_storeWrapsAddressSpace_iff :
    exec i s = .refused .storeWrapsAddressSpace ↔
      s.pc ≠ 0xFFFFFFFC#32 ∧ FormAllowed s.params i ∧ s.msr.fp = true ∧ 0xFFFFFFF8 < (storeEA i s).toNat := by
  refine (exec_eq_outcome_iff (stop := .refuse .storeWrapsAddressSpace)).trans ?_
  rw [storeStop_instr_eq]
  simp [-not_or, -not_exists, ite_eq_iff]

theorem exec_eq_storeToProgramText_iff :
    exec i s = .refused .storeToProgramText ↔
      s.pc ≠ 0xFFFFFFFC#32 ∧ FormAllowed s.params i ∧ s.msr.fp = true ∧ (storeEA i s).toNat ≤ 0xFFFFFFF8 ∧
        TouchesText s.params (storeEA i s) := by
  refine (exec_eq_outcome_iff (stop := .refuse .storeToProgramText)).trans ?_
  rw [storeStop_instr_eq]
  simp [-not_or, -not_exists, ite_eq_iff]

theorem exec_eq_alignment_iff :
    exec i s = .fault (.alignment a) ↔
      s.pc ≠ 0xFFFFFFFC#32 ∧ FormAllowed s.params i ∧ s.msr.fp = true ∧ (storeEA i s).toNat ≤ 0xFFFFFFF8 ∧
        ¬ TouchesText s.params (storeEA i s) ∧
        s.params.alignFaults (storeEA i s) = true ∧ a = storeEA i s := by
  refine (exec_eq_outcome_iff (stop := .raise (.alignment a))).trans ?_
  rw [storeStop_instr_eq]
  simp [-not_or, -not_exists, ite_eq_iff, eq_comm (a := a)]

theorem exec_eq_memoryFault_iff :
    exec i s = .fault (.memoryFault a) ↔
      s.pc ≠ 0xFFFFFFFC#32 ∧ FormAllowed s.params i ∧ s.msr.fp = true ∧ (storeEA i s).toNat ≤ 0xFFFFFFF8 ∧
        ¬ TouchesText s.params (storeEA i s) ∧
        s.params.alignFaults (storeEA i s) = false ∧
        HasHole s.params (storeEA i s) ∧ a = storeEA i s := by
  refine (exec_eq_outcome_iff (stop := .raise (.memoryFault a))).trans ?_
  rw [storeStop_instr_eq]
  simp [-not_or, -not_exists, ite_eq_iff, eq_comm (a := a)]

end stops

/-- Settles O34: a form that completes had MSR[FP] = 1, and the stop's condition is met. -/
theorem disabledFloatingPointIsReported : Obligations.DisabledFloatingPointIsReported := by
  intro i s hfp
  refine ⟨fun hvalid hpc => exec_eq_floatingPointUnavailable_iff.2 ⟨hpc, .inl hvalid, hfp, rfl⟩,
    fun t ht => ?completes⟩
  case completes =>
    obtain ⟨-, -, hfp', -⟩ := completes_of_exec_eq_next ht
    exact Bool.false_ne_true (hfp.symm.trans hfp')

/-- Settles O20: `pc` of the shared store's effect, and the value Floating-Point Unavailable records. -/
theorem pcAdvancesByFour : Obligations.PcAdvancesByFour := by
  refine fun i s => ⟨fun t ht => ?next, fun a ha => ?fault⟩
  case next =>
    obtain ⟨-, rfl⟩ := exec_eq_next_iff.1 ht
    exact storeEffect_pc ..
  case fault =>
    obtain ⟨-, -, -, hpc⟩ := exec_eq_floatingPointUnavailable_iff.1 ha
    exact hpc

/-- An instruction completes or ends in one of the seven stops of 40_fp_store_double.md R62. -/
theorem exec_cases (i : Instr) (s : State) :
    (∃ t, exec i s = .next t) ∨ exec i s = .refused .pcWrap ∨ exec i s = .fault (.floatingPointUnavailable s.pc) ∨
      exec i s = .fault (.alignment (storeEA i s)) ∨ exec i s = .fault (.memoryFault (storeEA i s)) ∨
      exec i s = .refused .invalidFormRA0 ∨ exec i s = .refused .storeWrapsAddressSpace ∨
      exec i s = .refused .storeToProgramText := by
  cases hstop : storeStop (updatedRA i) (storeEA i s) s with
  | none => exact .inl ⟨_, exec_eq_next_iff.2 ⟨hstop, rfl⟩⟩
  | some stop =>
    rw [exec_eq_outcome_iff.2 hstop]
    rw [storeStop_instr_eq] at hstop
    split_ifs at hstop <;> cases hstop <;> simp [Stop.outcome, takeException]

end Sys2Proof.Machine
end

section
/-! SUPPORT. The fetch and the step, one lemma per case (20_memory.md R41, 30_encoding.md R54, R56). -/

namespace Sys2Proof.Machine

/-! ### The step by what the fetch gives -/

theorem step_of_misaligned {s : State} (h : s.pc.toNat % 4 ≠ 0) : step s = .refused .misalignedFetch := by
  simp [step, fetchInstr, h, Stop.outcome]

theorem step_of_unwritten {s : State} (hal : s.pc.toNat % 4 = 0) (h : fetchWord s = none) :
    step s = .refused .unwrittenFetch := by
  simp [step, fetchInstr, hal, h, Stop.outcome]

section word
variable {s : State} {w : Word} (hal : s.pc.toNat % 4 = 0) (hw : fetchWord s = some w)
include hal hw

theorem step_of_instr {i : Instr} (h : decodeWord s.params.bit31Policy w = .instr i) : step s = exec i s := by
  simp [step, fetchInstr, hal, hw, h]

theorem step_of_notInScope (h : decodeWord s.params.bit31Policy w = .notInScope) : step s = .refused .notInScope := by
  simp [step, fetchInstr, hal, hw, h, Stop.outcome]

theorem step_of_reservedBit31 (h : decodeWord s.params.bit31Policy w = .reservedBit31) :
    step s = .refused (if s.pc = lastPc then .pcWrap else .reservedBit31) := by
  simp [step, fetchInstr, hal, hw, h, Stop.outcome]

end word

theorem step_of_fetchInstr {s : State} {i : Instr} (h : fetchInstr s = .ok i) : step s = exec i s := by
  simp [step, h]

/-- A fetch that gives no instruction is refused, and so is the step. -/
theorem step_cases_of_fetchInstr_error {s : State} {stop : Stop} (h : fetchInstr s = .error stop) :
    step s = .refused .misalignedFetch ∨ step s = .refused .unwrittenFetch ∨ step s = .refused .notInScope ∨
      step s = .refused .reservedBit31 ∨ step s = .refused .pcWrap := by
  by_cases hal : s.pc.toNat % 4 = 0
  · cases hw : fetchWord s with
    | none => exact .inr (.inl (step_of_unwritten hal hw))
    | some w =>
      cases hd : decodeWord s.params.bit31Policy w with
      | instr i => simp [fetchInstr, hal, hw, hd] at h
      | notInScope => exact .inr (.inr (.inl (step_of_notInScope hal hw hd)))
      | reservedBit31 =>
        rw [step_of_reservedBit31 hal hw hd]
        split <;> simp
  · exact .inl (step_of_misaligned hal)

/-- Settles O33: the condition of each stop, and the step on a reserved word. -/
theorem theFirstConditionInOrderDecides : Obligations.TheFirstConditionInOrderDecides :=
  ⟨fun _ _ => ⟨exec_eq_pcWrap_iff, exec_eq_invalidFormRA0_iff, fun _ => exec_eq_floatingPointUnavailable_iff,
    exec_eq_storeWrapsAddressSpace_iff, exec_eq_storeToProgramText_iff, fun _ => exec_eq_alignment_iff,
    fun _ => exec_eq_memoryFault_iff⟩,
  fun _ _ => step_of_reservedBit31⟩

/-- Settles O12: the step is the fetched instruction's outcome, or the fetch is refused. -/
theorem everyOutcomeIsOneTheSpecNames : Obligations.EveryOutcomeIsOneTheSpecNames := by
  intro s
  cases hfetch : fetchInstr s with
  | ok i =>
    have houtcome := exec_cases i s
    simp only [step_of_fetchInstr hfetch, Except.ok.injEq, exists_eq_left']
    tauto
  | error stop =>
    have hrefused := step_cases_of_fetchInstr_error hfetch
    tauto

/-- Settles O36: the fetch checks the alignment, and the instruction at the last `pc` is stopped first of all. -/
theorem theLastPcIsRefused : Obligations.TheLastPcIsRefused :=
  ⟨fun _ _ => aligned_of_fetchInstr,
    fun _ _ hfetch hpc => (step_of_fetchInstr hfetch).trans (exec_eq_pcWrap_iff.2 hpc)⟩

/-! ### The bytes of the fetched word -/

theorem fetchWord_eq_none_of_read {s : State} {k : Nat} (hk : k < 4) (h : s.mem.read (byteAddr s.pc k) = none) :
    fetchWord s = none := by
  unfold fetchWord
  split
  next h0 h1 h2 h3 => interval_cases k <;> simp_all
  next => rfl

/-- Settles O10: without one of its bytes there is no fetched word. -/
theorem fetchOfAnUnwrittenByteIsRefused : Obligations.FetchOfAnUnwrittenByteIsRefused :=
  fun _ _ hk hal h => step_of_unwritten hal (fetchWord_eq_none_of_read hk h)

/-- A completed instruction leaves `pc` a multiple of 4 (20_memory.md R41). -/
theorem aligned_of_exec_eq_next {i : Instr} {s t : State} (hal : s.pc.toNat % 4 = 0) (h : exec i s = .next t) :
    t.pc.toNat % 4 = 0 := by
  obtain ⟨hpc, -⟩ := completes_of_exec_eq_next h
  obtain ⟨-, rfl⟩ := exec_eq_next_iff.1 h
  rw [storeEffect_pc, pc_add_four_toNat hal hpc]
  omega

/-- Settles O9: the four bytes are the fetched word. -/
theorem stepRunsTheDecodedInstruction : Obligations.StepRunsTheDecodedInstruction := by
  refine ⟨fun s b0 b1 b2 b3 i hal h0 h1 h2 h3 hdecode => ?word, fun _ => step_of_misaligned,
    fun _ _ _ => aligned_of_exec_eq_next⟩
  case word =>
    have hw : fetchWord s = some (b0 ++ b1 ++ b2 ++ b3) := by
      simp [fetchWord, byteAddr, h0, h1, h2, h3, wordOfBytes]
    exact step_of_instr hal hw hdecode

/-! ### A word placed at `pc` -/

/-- The four bytes of a word have different addresses. -/
theorem byteAddr_ne {a : Addr} {j k : Nat} (hj : j < 4) (hk : k < 4) (h : j ≠ k) : byteAddr a j ≠ byteAddr a k := by
  intro e
  have := congrArg BitVec.toNat e
  simp only [byteAddr, BitVec.toNat_add, BitVec.toNat_ofNat] at this
  omega

/-- Byte `k` of a placed word reads as byte `k` of the word (20_memory.md R41). -/
theorem read_placeWord (m : Memory) (a : Addr) (w : Word) {k : Nat} (hk : k < 4) :
    (placeWord m a w).read (byteAddr a k) = some (byteOfWord w k) := by
  have unrolled : placeWord m a w =
      (((m.write (byteAddr a 0) (byteOfWord w 0)).write (byteAddr a 1) (byteOfWord w 1)).write
        (byteAddr a 2) (byteOfWord w 2)).write (byteAddr a 3) (byteOfWord w 3) := rfl
  rw [unrolled]
  interval_cases k <;> simp [Memory.read_write_ne, byteAddr_ne]

/-- The four bytes of a word, in ascending order, are the word. -/
theorem wordOfBytes_byteOfWord (w : Word) :
    wordOfBytes (byteOfWord w 0) (byteOfWord w 1) (byteOfWord w 2) (byteOfWord w 3) = w := by
  show w.extractLsb' 24 8 ++ w.extractLsb' 16 8 ++ w.extractLsb' 8 8 ++ w.extractLsb' 0 8 = w
  rw [BitVec.extractLsb'_append_extractLsb'_eq_extractLsb' (show 24 = 16 + 8 from rfl),
    BitVec.extractLsb'_append_extractLsb'_eq_extractLsb' (show 16 = 8 + 8 from rfl),
    BitVec.extractLsb'_append_extractLsb'_eq_extractLsb' (show 8 = 0 + 8 from rfl)]
  exact BitVec.extractLsb'_eq_self

/-- The fetch after a load gives the loaded word. -/
theorem fetchWord_loadWord (s : State) (w : Word) : fetchWord (loadWord s w) = some w := by
  simp [fetchWord, loadWord, read_placeWord, wordOfBytes_byteOfWord]

/-- Loading a whole word through the host's interface. -/
theorem withFetchWord_toNat (s : State) (w : Word) : s.withFetchWord 32 w.toNat = loadWord s w := by
  rw [State.withFetchWord, Nat.mod_eq_of_lt w.isLt, BitVec.ofNat_toNat, BitVec.setWidth_eq]

/-- Settles O11: the fetch gives the word back, and the word decodes to the instruction. -/
theorem aLoadedInstructionIsTheNextToRun : Obligations.ALoadedInstructionIsTheNextToRun := by
  intro s i hal
  rw [withFetchWord_toNat]
  exact step_of_instr (s := loadWord s (encode i)) hal (fetchWord_loadWord s (encode i)) (decodeWord_encode _ i)

end Sys2Proof.Machine
end

section
/-! SUPPORT. What every step keeps, and what every run keeps (10_state.md R16, R17, R24; 20_memory.md R36, R41, R42). -/

namespace Sys2Proof.Machine

/-! ### One step -/

/-- Every instruction that completes keeps the invariant. -/
theorem inv_of_exec_eq_next {i : Instr} {s t : State} (hinv : Inv s) (h : exec i s = .next t) : Inv t := by
  obtain ⟨hmem, hal, hrsv⟩ := hinv
  obtain ⟨hea, -⟩ := storeAllowed_of_exec_eq_next h
  have hal' := aligned_of_exec_eq_next hal h
  obtain ⟨-, rfl⟩ := exec_eq_next_iff.1 h
  refine ⟨?_, hal', ?_⟩
  · rw [storeEffect_mem]
    exact memWrite_wf _ hmem hea _
  · rw [storeEffect_rsv]
    exact hrsv.filter _

/-- Settles O40: a step that answers a next state is an instruction that completes. -/
theorem everyStepKeepsTheInvariant : Obligations.EveryStepKeepsTheInvariant := by
  intro s t hinv h
  obtain ⟨i, -, hexec⟩ := step_eq_next_iff.1 h
  exact inv_of_exec_eq_next hinv hexec

/-- Settles O39: the launch state evaluated. -/
theorem resetMeetsTheInvariant : Obligations.ResetMeetsTheInvariant := by
  unfold Obligations.ResetMeetsTheInvariant
  decide

/-- A byte that an instruction changes is admitted and lies outside the program text (20_memory.md R36, R42). -/
theorem exec_next_changed_byte {i : Instr} {s t : State} (h : exec i s = .next t) {a : Addr}
    (ha : t.mem.read a ≠ s.mem.read a) : s.params.isAdmitted a = true ∧ s.params.inProgramText a = false := by
  obtain ⟨-, htext, -, hadmitted⟩ := storeAllowed_of_exec_eq_next h
  obtain ⟨k, hk, rfl⟩ : ∃ k < 8, a = storeEA i s + BitVec.ofNat 32 k := by
    by_contra hother
    push Not at hother
    exact ha (exec_next_read_other h hother)
  exact ⟨hadmitted k hk, htext k hk⟩

/-- Settles O41: the step is an instruction that completes. -/
theorem aStepWritesOnlyAdmittedDataBytes : Obligations.AStepWritesOnlyAdmittedDataBytes := by
  intro s t h a ha
  obtain ⟨i, -, hexec⟩ := step_eq_next_iff.1 h
  exact exec_next_changed_byte hexec ha

/-! ### Runs -/

/-- What `k` steps from `s` to `t` keep: the program text, every register but the general ones and `pc`, the launch
parameters, and the reservations up to invalidation; `pc` has moved on by `4 * k` without wrapping. -/
structure StraightLine (k : Nat) (s t : State) : Prop where
  text : ∀ a, s.params.inProgramText a = true → t.mem.read a = s.mem.read a
  f : t.f = s.f
  msr : t.msr = s.msr
  fpscr : t.fpscr = s.fpscr
  cr : t.cr = s.cr
  xer : t.xer = s.xer
  v : t.v = s.v
  params : t.params = s.params
  rsv : ∀ r ∈ t.rsv, r ∈ s.rsv
  pc : t.pc.toNat = s.pc.toNat + 4 * k

theorem StraightLine.refl (s : State) : StraightLine 0 s s :=
  ⟨fun _ _ => rfl, rfl, rfl, rfl, rfl, rfl, rfl, rfl, fun _ h => h, rfl⟩

theorem StraightLine.trans {j k : Nat} {s t u : State} (h : StraightLine j s t) (h' : StraightLine k t u) :
    StraightLine (j + k) s u where
  text a ha := (h'.text a (h.params ▸ ha)).trans (h.text a ha)
  f := h'.f.trans h.f
  msr := h'.msr.trans h.msr
  fpscr := h'.fpscr.trans h.fpscr
  cr := h'.cr.trans h.cr
  xer := h'.xer.trans h.xer
  v := h'.v.trans h.v
  params := h'.params.trans h.params
  rsv r hr := h.rsv r (h'.rsv r hr)
  pc := by rw [h'.pc, h.pc]; omega

/-- A step is a straight line: the frame of its instruction, the isolation of the text and the check of the last `pc`. -/
theorem straightLine_of_step {s t : State} (h : step s = .next t) : StraightLine 1 s t := by
  obtain ⟨i, hfetch, hexec⟩ := step_eq_next_iff.1 h
  obtain ⟨-, hf, hmsr, hfpscr, hcr, hxer, hv, hparams, hrsv, -⟩ := onlyTheNamedStateChanges i s t hexec
  obtain ⟨hpc, -⟩ := completes_of_exec_eq_next hexec
  refine ⟨fun a ha => ?text, hf, hmsr, hfpscr, hcr, hxer, hv, hparams, hrsv, ?pc⟩
  case text =>
    by_contra hchanged
    obtain ⟨-, houtside⟩ := exec_next_changed_byte hexec hchanged
    exact Bool.false_ne_true (houtside.symm.trans ha)
  case pc =>
    obtain ⟨-, rfl⟩ := exec_eq_next_iff.1 hexec
    rw [storeEffect_pc, pc_add_four_toNat (aligned_of_fetchInstr hfetch) hpc]

theorem straightLine_of_run {k : Nat} {s t : State} (h : core.run k s = .next t) : StraightLine k s t := by
  induction k generalizing s with
  | zero =>
    obtain rfl : s = t := Host.Outcome.next.inj h
    exact .refl s
  | succ k ih =>
    obtain ⟨u, hstep, hrun⟩ := run_succ_eq_next_iff.1 h
    rw [Nat.add_comm]
    exact (straightLine_of_step hstep).trans (ih hrun)

/-- Settles O42: a run is a straight line, by induction on its length. -/
theorem runsAreStraightLinesOverFixedText : Obligations.RunsAreStraightLinesOverFixedText := by
  intro k s t h
  obtain ⟨htext, hf, hmsr, hfpscr, hcr, hxer, hv, hparams, hrsv, hpc⟩ := straightLine_of_run h
  exact ⟨htext, hf, hmsr, hfpscr, hcr, hxer, hv, hparams, hrsv, hpc⟩

/-- Settles O43: the step runs the decoded instruction, which completes. -/
theorem aLaunchedInstructionRuns : Obligations.ALaunchedInstructionRuns := by
  intro s w i hal hw hdecode hcompletes
  have hstep := (step_of_instr hal hw hdecode).trans (exec_eq_next_of_completes hcompletes)
  exact ⟨⟨_, run_succ_eq_next_iff.2 ⟨_, hstep, rfl⟩⟩, _, hstep, (straightLine_of_step hstep).pc⟩

end Sys2Proof.Machine
end

section
/-! SUPPORT. What a completed store leaves: the bytes, the reads of any width, the updated base, the reservations
(20_memory.md R29, R30, R40; 40_fp_store_double.md R64, R71). -/

namespace Sys2Proof.Machine

/-! ### The stored bytes -/

/-- Byte `k` at the effective address is byte `k` of the source register as it was, most significant first
(20_memory.md R29). -/
theorem exec_next_read_stored {i : Instr} {s t : State} (h : exec i s = .next t) {k : Nat} (hk : k < 8) :
    t.mem.read (storeEA i s + BitVec.ofNat 32 k) = some ((s.f.get (sourceFS i)).extractLsb' (56 - 8 * k) 8) := by
  obtain ⟨hea, -⟩ := storeAllowed_of_exec_eq_next h
  obtain ⟨-, rfl⟩ := exec_eq_next_iff.1 h
  rw [storeEffect_mem]
  exact memWrite_read_stored _ _ hea _ hk

/-- Settles O25: the stored bytes, and the registers the store keeps. -/
theorem theStoredBytesAreTheRegisterBigEndian : Obligations.TheStoredBytesAreTheRegisterBigEndian := by
  intro i s t fs hfs h
  have hsource : sourceFS i = fs := by cases i <;> exact hfs
  refine ⟨fun k hk => hsource ▸ exec_next_read_stored h hk, ?_⟩
  obtain ⟨-, rfl⟩ := exec_eq_next_iff.1 h
  exact ⟨by rw [storeEffect_f], storeEffect_fpscr ..⟩

/-- Settles O37: without a rule the alignment condition fails; a store that meets the others completes with its bytes. -/
theorem unalignedStoresAreTolerated : Obligations.UnalignedStoresAreTolerated := by
  have noRule {p : LaunchParams} (h : p.alignFault = []) (ea : Addr) : p.alignFaults ea = false := by
    rw [LaunchParams.alignFaults, h, List.any_nil]
  refine ⟨fun i s hnone a ha => ?notRaised, fun i s hnone hpc hform hfp hea hbytes => ?completes,
    fun i s a ha => ?raised⟩
  case notRaised =>
    obtain ⟨-, -, -, -, -, hrule, -⟩ := exec_eq_alignment_iff.1 ha
    exact Bool.false_ne_true ((noRule hnone _).symm.trans hrule)
  case completes =>
    have hallowed : StoreAllowed s.params (storeEA i s) :=
      ⟨hea, fun k hk => (hbytes k hk).1, noRule hnone _, fun k hk => (hbytes k hk).2⟩
    have hnext := exec_eq_next_of_completes ⟨hpc, hform, hfp, hallowed⟩
    exact ⟨_, hnext, fun _ => exec_next_read_stored hnext⟩
  case raised =>
    obtain ⟨-, -, -, -, -, hrule, rfl⟩ := exec_eq_alignment_iff.1 ha
    exact ⟨rfl, hrule⟩

/-- Settles O38: the address checks of a store that completes, and the condition of MemoryFault. -/
theorem noStoreIsPerformedInPart : Obligations.NoStoreIsPerformedInPart := by
  refine ⟨fun i s t h => ?completed, fun i s k hk hpc hform hfp hea htext halign hhole => ?notAdmitted⟩
  case completed =>
    obtain ⟨hea, htext, -, hadmitted⟩ := storeAllowed_of_exec_eq_next h
    exact ⟨hea, fun k hk => ⟨hadmitted k hk, htext k hk⟩⟩
  case notAdmitted =>
    have hclear : ¬ TouchesText s.params (storeEA i s) := by
      rintro ⟨l, hl, h⟩
      exact Bool.false_ne_true ((htext l hl).symm.trans h)
    exact exec_eq_memoryFault_iff.2 ⟨hpc, hform, hfp, hea, hclear, halign, ⟨k, hk, hhole⟩, rfl⟩

/-! ### Reads of any width (20_memory.md R30) -/

theorem byteAddr_add (a : Addr) (k n : Nat) : byteAddr (a + BitVec.ofNat 32 k) n = a + BitVec.ofNat 32 (k + n) := by
  rw [byteAddr, BitVec.ofNat_add, BitVec.add_assoc]

/-- A slice of a doubleword with eight more bits below it is the slice times 256 plus those bits. -/
theorem toNat_extractLsb'_add_eight (v : Dword) (p len : Nat) :
    (v.extractLsb' p (len + 8)).toNat = (v.extractLsb' (p + 8) len).toNat * 256 + (v.extractLsb' p 8).toNat := by
  simp only [BitVec.extractLsb'_toNat, Nat.shiftRight_add]
  rw [Nat.shiftRight_eq_div_pow (_ >>> p) 8, Nat.pow_add', Nat.mod_mul]
  omega

/-- A big-endian read of `n` bytes from byte `k` of a doubleword that lies in memory gives that slice. -/
theorem readBE_of_read {m : Memory} {a : Addr} {v : Dword}
    (h : ∀ k < 8, m.read (a + BitVec.ofNat 32 k) = some (v.extractLsb' (56 - 8 * k) 8)) {k n : Nat} (hkn : k + n ≤ 8) :
    m.readBE (a + BitVec.ofNat 32 k) n = some (v.extractLsb' (64 - 8 * (k + n)) (8 * n)).toNat := by
  induction n with
  | zero => simp [Memory.readBE]
  | succ n ih =>
    have hpos : 64 - 8 * (k + n) = 64 - 8 * (k + (n + 1)) + 8 := by omega
    have hbyte : 56 - 8 * (k + n) = 64 - 8 * (k + (n + 1)) := by omega
    simp only [Memory.readBE, ih (by omega), byteAddr_add, h (k + n) (by omega)]
    rw [hpos, hbyte, Nat.mul_succ 8 n, toNat_extractLsb'_add_eight v _ (8 * n)]

/-- A read of any width inside the eight bytes of a completed store gives that slice of the value. -/
theorem exec_next_memRead {i : Instr} {s t : State} (h : exec i s = .next t) {k n : Nat} (hkn : k + n ≤ 8) :
    memRead t.mem (storeEA i s + BitVec.ofNat 32 k) n =
      some ((s.f.get (sourceFS i)).extractLsb' (64 - 8 * (k + n)) (8 * n)) := by
  obtain ⟨hea, -⟩ := storeAllowed_of_exec_eq_next h
  have hfits : (storeEA i s + BitVec.ofNat 32 k).toNat + n ≤ 2 ^ 32 := by
    rw [BitVec.toNat_add, BitVec.toNat_ofNat]
    omega
  rw [memRead, if_pos hfits, readBE_of_read (fun _ => exec_next_read_stored h) hkn, Option.map_some,
    BitVec.ofNat_toNat, BitVec.setWidth_eq]

/-- Settles O26: the read of a slice; the second store's bytes, and the first one's where the second did not write. -/
theorem readsOfAnyWidthSeeTheStore : Obligations.ReadsOfAnyWidthSeeTheStore :=
  ⟨fun _ _ _ h _ _ => exec_next_memRead h, fun _ _ _ _ _ hi hj => ⟨fun _ => exec_next_read_stored hj,
    fun _ hk hother => (exec_next_read_other hj hother).trans (exec_next_read_stored hi hk)⟩⟩

/-! ### The updated base -/

theorem storeEA_stfdu (fs ra : Reg) (d : BitVec 16) (s : State) :
    storeEA (.stfdu fs ra d) s = (s.x.get ra + d.signExtend 64).extractLsb' 0 32 := effectiveAddress_eq_low ..

theorem storeEA_stfdux (fs ra rb : Reg) (s : State) :
    storeEA (.stfdux fs ra rb) s = (s.x.get ra + s.x.get rb).extractLsb' 0 32 := effectiveAddress_eq_low ..

theorem storeEA_stfdx_of_ne {ra : Reg} (h : ra ≠ 0) (fs rb : Reg) (s : State) :
    storeEA (.stfdx fs ra rb) s = (s.x.get ra + s.x.get rb).extractLsb' 0 32 := by
  rw [← operandRA0_of_ne h, ← effectiveAddress_eq_low]
  rfl

/-- An update form leaves 32 zeros and the effective address in `RA` (40_fp_store_double.md R64). -/
theorem exec_next_updatedRA_eq_append {i : Instr} {s t : State} {ra : Reg} (hu : updatedRA i = some ra)
    (h : exec i s = .next t) : t.x.get ra = 0#32 ++ storeEA i s := by
  rw [exec_next_x_get_updatedRA hu h, setWidth_eq_zero_append]

/-- The halves of the register an update form has written. -/
theorem exec_next_updatedRA_halves {i : Instr} {s t : State} {ra : Reg} (hu : updatedRA i = some ra)
    (h : exec i s = .next t) :
    (t.x.get ra).extractLsb' 0 32 = storeEA i s ∧ (t.x.get ra).extractLsb' 32 32 = 0#32 := by
  rw [exec_next_updatedRA_eq_append hu h]
  exact ⟨BitVec.extractLsb'_append_eq_right, BitVec.extractLsb'_append_eq_left⟩

/-- Settles O27: the halves of the updated register, and no write in the other forms. -/
theorem updateWritesTheZeroExtendedAddress : Obligations.UpdateWritesTheZeroExtendedAddress :=
  ⟨fun fs ra d s _ h => storeEA_stfdu fs ra d s ▸ exec_next_updatedRA_halves rfl h,
    fun fs ra rb s _ h => storeEA_stfdux fs ra rb s ▸ exec_next_updatedRA_halves rfl h,
    fun _ _ _ _ _ => exec_next_x_of_no_update rfl, fun _ _ _ _ _ => exec_next_x_of_no_update rfl⟩

/-- Settles O28: the address, the updated register and the stored bytes, all from the registers before. -/
theorem readsComeBeforeTheWrite : Obligations.ReadsComeBeforeTheWrite := by
  refine ⟨fun fs r s t h => ?stfdux, fun fs r s t hr h => ?stfdx, fun r d s t h => ?stfdu,
    fun _ _ _ h _ => exec_next_read_stored h⟩
  case stfdux =>
    rw [← storeEA_stfdux fs r r s]
    exact ⟨exec_next_updatedRA_eq_append rfl h, fun _ => exec_next_read_stored h⟩
  case stfdx =>
    rw [← storeEA_stfdx_of_ne hr fs r s]
    exact fun _ => exec_next_read_stored h
  case stfdu =>
    rw [← storeEA_stfdu r r d s]
    refine ⟨exec_next_updatedRA_eq_append rfl h, ?_, fun _ => exec_next_read_stored h⟩
    obtain ⟨-, rfl⟩ := exec_eq_next_iff.1 h
    exact storeEffect_f ..

/-- The low half of the extended displacement is its extension to 32 bits (30_encoding.md R48). -/
theorem extractLsb'_extsD (d : BitVec 16) : (extsD d).extractLsb' 0 32 = d.signExtend 32 := by
  refine BitVec.eq_of_getLsbD_eq fun k hk => ?_
  rw [BitVec.getLsbD_extractLsb', Nat.zero_add, getLsbD_extsD d (by omega), BitVec.getLsbD_signExtend,
    BitVec.msb_eq_getLsbD_last]

/-- Settles O29: the base of the second instruction is the register the first one wrote. -/
theorem theNextInstructionSeesTheUpdatedBase : Obligations.TheNextInstructionSeesTheUpdatedBase := by
  intro fs fs' ra d d' s t hra h
  have hlow := (exec_next_updatedRA_halves rfl h).1
  have hnext : effectiveAddress (t.x.get ra) (extsD d') = storeEA (.stfdu fs ra d) s + d'.signExtend 32 := by
    rw [effectiveAddress_eq_add_low, hlow, extractLsb'_extsD]
  refine ⟨hnext, ?_⟩
  rw [← hnext, ← operandRA0_of_ne hra]
  rfl

/-! ### Reservations -/

/-- Settles O30: the surviving reservations by their granule. -/
theorem aStoreClearsTheReservationsItTouches : Obligations.AStoreClearsTheReservationsItTouches := by
  intro i s t h r
  obtain ⟨-, rfl⟩ := exec_eq_next_iff.1 h
  rw [storeEffect_rsv, ← State.killReservations_rsv, State.mem_killReservations]
  simp only [not_exists, not_and]
  rfl

end Sys2Proof.Machine
end

section
/-! SUPPORT. Atomic and byte-wise stores, and the order of the byte writes (20_memory.md R34). -/

namespace Sys2Proof.Machine

/-- Settles O32: canonical memories that read the same are equal, and a read sees only which bytes were written. -/
theorem theOrderOfTheByteWritesDoesNotMatter : Obligations.TheOrderOfTheByteWritesDoesNotMatter := by
  intro order m ea v hm hea hperm
  refine Memory.eq_of_read_eq (writeBytesInOrder_wf hm _ ea v) (writeBytesInOrder_wf hm _ ea v) fun a => ?_
  have hlt : ∀ i ∈ List.range 8, i < 8 := fun _ => List.mem_range.1
  rw [writeBytesInOrder_read hea v _ (fun i hi => hlt i (hperm.mem_iff.1 hi)), writeBytesInOrder_read hea v _ hlt]
  simp only [hperm.mem_iff]

/-- On canonical memory the store is eight byte writes whatever `ATOMIC_ALIGNED_DW` is: the indivisible write takes place at
a multiple of 8 alone, where nothing wraps. -/
theorem memWrite_eq_writeBytesInOrder (p : LaunchParams) {m : Memory} (hm : m.wf) (ea : Addr) (v : Dword) :
    memWrite p m ea v = writeBytesInOrder (List.range 8) m ea v := by
  by_cases hmul : ea.toNat % 8 = 0
  · have hea : ea.toNat ≤ 0xFFFFFFF8 := by omega
    refine Memory.eq_of_read_eq (memWrite_wf p hm hea v) (writeBytesInOrder_wf hm _ ea v) fun a => ?_
    have bytewise : writeBytesInOrder (List.range 8) m ea v = memWrite { p with atomicAlignedDW := false } m ea v := rfl
    rw [bytewise, memWrite_read _ _ hea, memWrite_read _ _ hea]
  · simp [memWrite, hmul]

/-- The state with another setting of `ATOMIC_ALIGNED_DW`. -/
def State.withAtomic (b : Bool) (s : State) : State := { s with params := { s.params with atomicAlignedDW := b } }

/-- On canonical memory the effect of a store is the same under either setting of `ATOMIC_ALIGNED_DW`. -/
theorem storeEffect_withAtomic {s : State} (hm : s.mem.wf) (b : Bool) (u : Option Reg) (fs : Reg) (ea : Addr) :
    storeEffect u fs ea (s.withAtomic b) = (storeEffect u fs ea s).withAtomic b := by
  have hmem : memWrite (s.withAtomic b).params s.mem ea (s.fpr fs) = memWrite s.params s.mem ea (s.fpr fs) := by
    rw [memWrite_eq_writeBytesInOrder _ hm, memWrite_eq_writeBytesInOrder _ hm]
  have hfields : storeEffect u fs ea (s.withAtomic b) =
      { (storeEffect u fs ea s).withAtomic b with
        mem := memWrite (s.withAtomic b).params s.mem ea (s.fpr fs) } := by cases u <;> rfl
  rw [hfields, hmem]
  cases u <;> rfl

/-- Settles O31: the setting is a change of state that commutes with the instruction. -/
theorem atomicAndByteWiseStoresAgree : Obligations.AtomicAndByteWiseStoresAgree := by
  intro i s b hm
  have key : exec i (s.withAtomic b) = mapNext (·.withAtomic b) (exec i s) :=
    exec_mapNext (g := (·.withAtomic b)) (storeEA_congr rfl i) (fun _ _ => rfl) (storeEffect_withAtomic hm b)
  exact ⟨fun _ h => key.trans (congrArg _ h), fun _ h => key.trans (congrArg _ h), fun _ h => key.trans (congrArg _ h)⟩

end Sys2Proof.Machine
end

section
/-! SUPPORT. Words of the X forms with bit 31 = 1, the words of no form, and the words with `RA` = 0
(30_encoding.md R54 to R56). -/

namespace Sys2Proof

/-! ### Bit 31 (30_encoding.md R54) -/

/-- Clearing bit 31 of a word that has it, by subtraction as by exclusive or. -/
theorem sub_one_eq_xor_one {w : Word} (h : fieldBit31 w = true) : w - 1#32 = w ^^^ 1#32 := by
  have hodd : w.toNat % 2 = 1 := by simpa [fieldBit31, BitVec.getLsbD] using h
  have hlt := w.isLt
  apply BitVec.eq_of_toNat_eq
  show (2 ^ 32 - 1 + w.toNat) % 2 ^ 32 = w.toNat ^^^ 1
  rw [Nat.xor_one_of_odd (Nat.odd_iff.2 hodd)]
  omega

/-- Bits above bit 31 do not see it. -/
theorem extractLsb'_xor_one (w : Word) {k n : Nat} (hk : 0 < k) :
    (w ^^^ 1#32).extractLsb' k n = w.extractLsb' k n := by
  refine BitVec.eq_of_getLsbD_eq fun i hi => ?_
  simp [BitVec.getLsbD_extractLsb', BitVec.getLsbD_one, hk.ne']

/-- The operands of an X form are the same with and without bit 31. -/
theorem ofFields_xor_one {m : Mnemonic} (h : m.isX = true) (w : Word) : ofFields (w ^^^ 1#32) m = ofFields w m := by
  cases m with
  | stfd | stfdu => exact nomatch h
  | stfdx | stfdux =>
    simp only [ofFields, fieldFS, fieldRA, fieldRB, extractLsb'_xor_one w (k := 21) (by decide),
      extractLsb'_xor_one w (k := 16) (by decide), extractLsb'_xor_one w (k := 11) (by decide)]

/-- A word's masked value by the primary opcode, the extended opcode and bit 31. -/
theorem and_xform_mask_eq_iff {w : Word} {op : BitVec 6} {xo : BitVec 10} {b : BitVec 1} :
    w &&& 0xFC0007FF#32 = op ++ 0#15 ++ xo ++ b ↔
      w.extractLsb' 26 6 = op ∧ w.extractLsb' 1 10 = xo ∧ w.extractLsb' 0 1 = b := by
  rw [and_xform_mask, append_eq_append_iff, append_eq_append_iff, BitVec.append_left_inj, and_assoc]

/-- The mask of the X forms under `ignore` keeps the two opcodes alone. -/
theorem and_xform_ignore_mask (w : Word) :
    w &&& 0xFC0007FE#32 = w.extractLsb' 26 6 ++ 0#15 ++ w.extractLsb' 1 10 ++ 0#1 := by
  calc w &&& 0xFC0007FE#32
      = (w &&& 0xFC0007FF#32) &&& 0xFC0007FE#32 := by rw [BitVec.and_assoc]; rfl
    _ = (w.extractLsb' 26 6 ++ 0#15 ++ w.extractLsb' 1 10 ++ w.extractLsb' 0 1) &&&
          (BitVec.allOnes 6 ++ 0#15 ++ BitVec.allOnes 10 ++ 0#1) := congrArg (· &&& _) (and_xform_mask w)
    _ = w.extractLsb' 26 6 ++ 0#15 ++ w.extractLsb' 1 10 ++ 0#1 := by
      simp only [BitVec.and_append, BitVec.and_allOnes, BitVec.and_zero]

/-- A word matches the mask of `ignore` exactly when it matches that of `refuse` with bit 31 = 0 or 1. -/
theorem xform_ignore_iff (w : Word) (op : BitVec 6) (xo : BitVec 10) :
    w &&& 0xFC0007FE#32 = op ++ 0#15 ++ xo ++ 0#1 ↔
      w &&& 0xFC0007FF#32 = op ++ 0#15 ++ xo ++ 0#1 ∨ w &&& 0xFC0007FF#32 = op ++ 0#15 ++ xo ++ 1#1 := by
  have hbit := BitVec.eq_zero_or_eq_one (w.extractLsb' 0 1)
  rw [and_xform_mask_eq_iff, and_xform_mask_eq_iff, and_xform_ignore_mask, append_eq_append_iff, append_eq_append_iff,
    BitVec.append_left_inj, and_iff_left rfl, ← and_assoc, ← and_assoc, ← and_or_left, and_iff_left hbit]

/-- Whether a word with bit 31 flipped is of an X row, by the word itself. -/
theorem xor_one_and_xform_mask_iff (w : Word) (op : BitVec 6) (xo : BitVec 10) :
    (w ^^^ 1#32) &&& 0xFC0007FF#32 = op ++ 0#15 ++ xo ++ 0#1 ↔ w &&& 0xFC0007FF#32 = op ++ 0#15 ++ xo ++ 1#1 := by
  have hbit : (w ^^^ 1#32).extractLsb' 0 1 = 0#1 ↔ w.extractLsb' 0 1 = 1#1 := by
    rw [BitVec.extractLsb'_xor]
    exact BitVec.xor_left_inj (y := 1#1) 1#1
  rw [and_xform_mask_eq_iff, and_xform_mask_eq_iff, extractLsb'_xor_one w (k := 26) (by decide),
    extractLsb'_xor_one w (k := 1) (by decide), hbit]

/-- Bit 31 of a word whose masked value is known. -/
theorem fieldBit31_of_and_mask {w u : Word} (h : w &&& 0xFC0007FF#32 = u) : fieldBit31 w = fieldBit31 u := by
  rw [← h]
  simp [fieldBit31]

/-- A reserved word is an X-form word of this spec but for its bit 31, which is 1. -/
theorem reservedX_eq_some_iff {w : Word} {m : Mnemonic} :
    reservedX w = some m ↔ fieldBit31 w = true ∧ lookup (w ^^^ 1#32) = some m ∧ m.isX = true := by
  unfold reservedX
  split
  next h => simp [h, Option.filter_eq_some_iff]
  next h => simp [h]

theorem reservedX_stfdx (w : Word) : reservedX w = some .stfdx ↔ w &&& 0xFC0007FF#32 = 0x7C0005AF#32 := by
  have hrow : lookup (w ^^^ 1#32) = some .stfdx ↔ w &&& 0xFC0007FF#32 = 0x7C0005AF#32 :=
    (lookup_stfdx _).trans (xor_one_and_xform_mask_iff w 31#6 727#10)
  rw [reservedX_eq_some_iff, hrow]
  exact ⟨fun ⟨_, h, _⟩ => h, fun h => ⟨fieldBit31_of_and_mask h, h, rfl⟩⟩

theorem reservedX_stfdux (w : Word) : reservedX w = some .stfdux ↔ w &&& 0xFC0007FF#32 = 0x7C0005EF#32 := by
  have hrow : lookup (w ^^^ 1#32) = some .stfdux ↔ w &&& 0xFC0007FF#32 = 0x7C0005EF#32 :=
    (lookup_stfdux _).trans (xor_one_and_xform_mask_iff w 31#6 759#10)
  rw [reservedX_eq_some_iff, hrow]
  exact ⟨fun ⟨_, h, _⟩ => h, fun h => ⟨fieldBit31_of_and_mask h, h, rfl⟩⟩

/-- No row of the map accepts a reserved word. -/
theorem lookup_eq_none_of_reservedX {w : Word} {m : Mnemonic} (h : reservedX w = some m) : lookup w = none := by
  have hX := isX_of_reservedX h
  cases m with
  | stfd | stfdu => exact nomatch hX
  | stfdx =>
    have hmask := (reservedX_stfdx w).1 h
    rw [lookup_eq, opcd_of_and_mask hmask, hmask]
    rfl
  | stfdux =>
    have hmask := (reservedX_stfdux w).1 h
    rw [lookup_eq, opcd_of_and_mask hmask, hmask]
    rfl

/-- Under `refuse` a reserved word is answered by that name. -/
theorem decodeWord_refuse_of_reservedX {w : Word} {m : Mnemonic} (h : reservedX w = some m) :
    decodeWord .refuse w = .reservedBit31 := by
  simp [decodeWord, lookup_eq_none_of_reservedX h, h]

/-- Under `ignore` a reserved word is the instruction of its fields. -/
theorem decodeWord_ignore_of_reservedX {w : Word} {m : Mnemonic} (h : reservedX w = some m) :
    decodeWord .ignore w = .instr (ofFields w m) := by
  simp [decodeWord, lookup_eq_none_of_reservedX h, h]

/-- Under `refuse` a reserved word with bit 31 cleared is the instruction of its fields. -/
theorem decodeWord_sub_one_of_reservedX {w : Word} {m : Mnemonic} (h : reservedX w = some m) :
    decodeWord .refuse (w - 1#32) = .instr (ofFields w m) := by
  obtain ⟨hbit, hrow, hX⟩ := reservedX_eq_some_iff.1 h
  rw [sub_one_eq_xor_one hbit, decodeWord_of_lookup _ hrow, ofFields_xor_one hX]

/-- Under `ignore` a word decodes to an instruction exactly when the instruction's row accepts it, with bit 31 as it is or
cleared, and its fields are the operands. -/
theorem decodeWord_ignore_eq_instr_iff {w : Word} {i : Instr} :
    decodeWord .ignore w = .instr i ↔
      (lookup w = some i.mnemonic ∨ reservedX w = some i.mnemonic) ∧ ofFields w i.mnemonic = i := by
  constructor
  · intro h
    have hfields {m : Mnemonic} (hm : decodeWord .ignore w = .instr (ofFields w m)) : ofFields w m = i :=
      Decoded.instr.inj (hm.symm.trans h)
    cases hrow : lookup w with
    | some m =>
      obtain rfl := hfields (decodeWord_of_lookup _ hrow)
      simp
    | none =>
      cases hreserved : reservedX w with
      | some m =>
        obtain rfl := hfields (decodeWord_ignore_of_reservedX hreserved)
        simp
      | none => simp [decodeWord, hrow, hreserved] at h
  · rintro ⟨hrow | hreserved, hfields⟩
    · rw [decodeWord_of_lookup _ hrow, hfields]
    · rw [decodeWord_ignore_of_reservedX hreserved, hfields]

/-- The mask of `stfdx` under `ignore`. -/
theorem stfdx_ignore_iff (w : Word) :
    w &&& 0xFC0007FE#32 = 0x7C0005AE#32 ↔ lookup w = some .stfdx ∨ reservedX w = some .stfdx := by
  rw [lookup_stfdx, reservedX_stfdx]
  exact xform_ignore_iff w 31#6 727#10

/-- The mask of `stfdux` under `ignore`. -/
theorem stfdux_ignore_iff (w : Word) :
    w &&& 0xFC0007FE#32 = 0x7C0005EE#32 ↔ lookup w = some .stfdux ∨ reservedX w = some .stfdux := by
  rw [lookup_stfdux, reservedX_stfdux]
  exact xform_ignore_iff w 31#6 759#10

/-! ### Words of no form (30_encoding.md R56) -/

/-- A word is out of scope under both policies exactly when it is neither of a row nor reserved. -/
theorem decodeWord_eq_notInScope_iff {p : Bit31Policy} {w : Word} :
    decodeWord p w = .notInScope ↔ ∀ m, lookup w ≠ some m ∧ reservedX w ≠ some m := by
  cases hrow : lookup w with
  | some m =>
    rw [decodeWord_of_lookup p hrow]
    exact ⟨nofun, fun h => absurd rfl (h m).1⟩
  | none =>
    cases hreserved : reservedX w with
    | none => simp [decodeWord, hrow, hreserved]
    | some m => cases p <;> simp [decodeWord, hrow, hreserved]

/-! ### Words with `RA` = 0 (30_encoding.md R55) -/

/-- A mask made of two, for a value within the first and outside the second. -/
theorem and_or_mask_iff {w a b v : Word} (ha : v &&& a = v) (hb : v &&& b = 0#32) :
    w &&& (a ||| b) = v ↔ w &&& a = v ∧ w &&& b = 0#32 := by
  have habsorb : (a ||| b) &&& a = a ∧ (a ||| b) &&& b = b := by
    constructor <;> refine BitVec.eq_of_getLsbD_eq fun i _ => ?_ <;> simp +contextual
  constructor
  · rintro rfl
    rw [BitVec.and_assoc, habsorb.1] at ha
    rw [BitVec.and_assoc, habsorb.2] at hb
    exact ⟨ha, hb⟩
  · rintro ⟨ha', hb'⟩
    rw [BitVec.and_or_distrib_left, ha', hb', BitVec.or_zero]

/-- The mask of the `RA` field. -/
theorem and_RA_mask_eq_zero_iff (w : Word) : w &&& 0x001F0000#32 = 0#32 ↔ fieldRA w = 0 := by
  have hw : w.extractLsb' 21 11 ++ w.extractLsb' 16 5 ++ w.extractLsb' 0 16 = w := by
    rw [BitVec.extractLsb'_append_extractLsb'_eq_extractLsb' (show 21 = 16 + 5 from rfl),
      BitVec.extractLsb'_append_extractLsb'_eq_extractLsb' (show 16 = 0 + 16 from rfl)]
    exact BitVec.extractLsb'_eq_self
  have hmask : w &&& 0x001F0000#32 = 0#11 ++ w.extractLsb' 16 5 ++ 0#16 := by
    calc w &&& 0x001F0000#32
        = (w.extractLsb' 21 11 ++ w.extractLsb' 16 5 ++ w.extractLsb' 0 16) &&&
            (0#11 ++ BitVec.allOnes 5 ++ 0#16) := congrArg (· &&& _) hw.symm
      _ = 0#11 ++ w.extractLsb' 16 5 ++ 0#16 := by
        simp only [BitVec.and_append, BitVec.and_allOnes, BitVec.and_zero]
  have hzero : (0#32 : Word) = 0#11 ++ 0#5 ++ 0#16 := rfl
  rw [hmask, hzero, BitVec.append_left_inj, append_eq_append_iff, and_iff_right rfl, ← BitVec.toFin_inj]
  rfl

/-- The words of `stfdu` with `RA` = 0. -/
theorem stfdu_RA0_iff (w : Word) :
    w &&& 0xFC1F0000#32 = 0xDC000000#32 ↔ w &&& 0xFC000000#32 = 0xDC000000#32 ∧ fieldRA w = 0 := by
  rw [← and_RA_mask_eq_zero_iff]
  exact and_or_mask_iff (a := 0xFC000000#32) (b := 0x001F0000#32) rfl rfl

/-- The words of `stfdux` with `RA` = 0. -/
theorem stfdux_RA0_iff (w : Word) :
    w &&& 0xFC1F07FF#32 = 0x7C0005EE#32 ↔ w &&& 0xFC0007FF#32 = 0x7C0005EE#32 ∧ fieldRA w = 0 := by
  rw [← and_RA_mask_eq_zero_iff]
  exact and_or_mask_iff (a := 0xFC0007FF#32) (b := 0x001F0000#32) rfl rfl

end Sys2Proof
end

section
/-! SUPPORT. The two policies and the words of no form (30_encoding.md R54 to R56). -/

namespace Sys2Proof.Machine

/-- Settles O5: the four masks by the rows of the map, with bit 31 set aside, and the step that refuses. -/
theorem everyOtherWordIsNotInScope : Obligations.EveryOtherWordIsNotInScope := by
  refine ⟨fun p w => ?words, fun _ _ => step_of_notInScope⟩
  simp only [decodeWord_eq_notInScope_iff, ne_eq, stfdx_ignore_iff, stfdux_ignore_iff, ← lookup_stfd, ← lookup_stfdu]
  constructor
  · intro h
    exact ⟨(h .stfd).1, (h .stfdu).1, not_or.2 (h .stfdx), not_or.2 (h .stfdux)⟩
  · rintro ⟨hstfd, hstfdu, hstfdx, hstfdux⟩ m
    cases m with
    | stfd => exact ⟨hstfd, fun h => nomatch isX_of_reservedX h⟩
    | stfdu => exact ⟨hstfdu, fun h => nomatch isX_of_reservedX h⟩
    | stfdx => exact not_or.1 hstfdx
    | stfdux => exact not_or.1 hstfdux

/-- Settles O4: the reserved words under either policy, and the masks of the X forms under `ignore`. -/
theorem bit31IsRefusedOrIgnored : Obligations.Bit31IsRefusedOrIgnored := by
  refine ⟨fun w hw => ?reserved, fun w => ?stfdx, fun w => ?stfdux⟩
  case reserved =>
    obtain ⟨m, hm⟩ : ∃ m, reservedX w = some m :=
      hw.elim (fun h => ⟨_, (reservedX_stfdx w).2 h⟩) fun h => ⟨_, (reservedX_stfdux w).2 h⟩
    have hrefuse := decodeWord_refuse_of_reservedX hm
    have hignore := decodeWord_ignore_of_reservedX hm
    refine ⟨hrefuse, fun s hal hfetch => ⟨fun hp hpc => ?_, fun hp => ?_⟩⟩
    · exact (step_of_reservedBit31 hal hfetch (hp ▸ hrefuse)).trans (congrArg _ (if_neg hpc))
    · have hstep := step_of_instr hal hfetch (hp ▸ hignore)
      refine ⟨_, decodeWord_sub_one_of_reservedX hm, hignore, hstep, fun t ht => ?_⟩
      obtain ⟨-, rfl⟩ := exec_eq_next_iff.1 (hstep ▸ ht)
      exact storeEffect_cr ..
  case stfdx =>
    rw [stfdx_ignore_iff]
    exact ⟨fun ⟨_, _, _, h⟩ => (decodeWord_ignore_eq_instr_iff.1 h).1,
      fun h => ⟨_, _, _, decodeWord_ignore_eq_instr_iff.2 ⟨h, rfl⟩⟩⟩
  case stfdux =>
    rw [stfdux_ignore_iff]
    exact ⟨fun ⟨_, _, _, h⟩ => (decodeWord_ignore_eq_instr_iff.1 h).1,
      fun h => ⟨_, _, _, decodeWord_ignore_eq_instr_iff.2 ⟨h, rfl⟩⟩⟩

/-- Settles O35: which words the invalid forms are, and what either policy does with them. -/
theorem invalidFormsFollowThePolicy : Obligations.InvalidFormsFollowThePolicy := by
  refine ⟨fun p w => ?stfduWords, fun w => ?stfduxWords, fun fs rb d s hp hpc => ?refuse,
    fun fs d s hp hpc hfp hallowed => ?stfduRuns, fun fs rb s hp hpc hfp hallowed => ?stfduxRuns⟩
  case stfduWords =>
    simp only [stfdu_RA0_iff, decodeWord_eq_stfdu_iff]
    exact ⟨fun ⟨hrow, hra⟩ => ⟨_, _, hrow, rfl, hra, rfl⟩, fun ⟨_, _, hrow, _, hra, _⟩ => ⟨hrow, hra⟩⟩
  case stfduxWords =>
    simp only [stfdux_RA0_iff, decodeWord_eq_stfdux_iff]
    exact ⟨fun ⟨hrow, hra⟩ => ⟨_, _, hrow, rfl, hra, rfl⟩, fun ⟨_, _, hrow, _, hra, _⟩ => ⟨hrow, hra⟩⟩
  case refuse =>
    have hinvalid {i : Instr} (hi : i.wellFormed = false) : ¬ FormAllowed s.params i := by
      simp [FormAllowed, hi, hp]
    exact ⟨exec_eq_invalidFormRA0_iff.2 ⟨hpc, hinvalid rfl⟩, exec_eq_invalidFormRA0_iff.2 ⟨hpc, hinvalid rfl⟩⟩
  case stfduRuns =>
    have hnext := stfduCompletes fs 0 d s hpc (.inr hp) hfp hallowed
    exact ⟨_, hnext, (exec_next_updatedRA_eq_append rfl hnext).trans (by rw [storeEA_stfdu])⟩
  case stfduxRuns =>
    have hnext := stfduxCompletes fs 0 rb s hpc (.inr hp) hfp hallowed
    exact ⟨_, hnext, (exec_next_updatedRA_eq_append rfl hnext).trans (by rw [storeEA_stfdux])⟩

end Sys2Proof.Machine
end
